-- ==== Sys2Proof/Word.lean ====
section
/-! DEFINITION. The value types of the core: bytes, word slots, stream positions and operand widths. -/

namespace Sys2Proof

/-- A byte: a code byte, a data-memory byte, a byte register (`u8`, R12). -/
abbrev Byte := BitVec 8

/-- A word slot, a data address or an assembled immediate (`u16`, R12). -/
abbrev Word := BitVec 16

/-- A committed stream position: the 32-bit register `IP` (R30). -/
abbrev Pos := BitVec 32

/-- The operand width of an instruction (R13): `w = 0` is byte, `w = 1` is word. -/
inductive Width where
  | byte
  | word
  deriving DecidableEq, Repr

/-- The number of bits of a value "of width w" (R13). -/
abbrev Width.bits : Width → Nat
  | .byte => 8
  | .word => 16

/-- A value of width `w`: `u8` or `u16` (R13). -/
abbrev Width.Val (w : Width) := BitVec w.bits

end Sys2Proof
end

