-- ==== Sys2Proof/Syntax.lean ====
section
/-! DEFINITION. The instructions of the core, one constructor for each row of spec/opcode_table.json. -/

namespace Sys2Proof

/-- The direction bit of `RM_REG` (R91): `d = 0` makes the reg field the source, `d = 1` the destination. -/
inductive Dir where
  | toRm
  | toReg
  deriving DecidableEq, Repr

/-- The encoded size of the displacement of an indexed memory operand: mod = 01 or mod = 10 (R77, R78). -/
inductive DispSize where
  | d8
  | d16
  deriving DecidableEq, Repr

/-- The r/m operand as encoded (R75-R78): the four variants of R55, with the displacement's encoded size
(log entry 13), and its displacement already extended to 16 bits. -/
inductive Rm where
  | register (index : BitVec 3)
  | directMemory (address : Word)
  | indexedMemory (size : DispSize) (base : BitVec 3) (displacement : Word)
  | indexedMemoryNoDisplacement (base : BitVec 3)
  deriving DecidableEq, Repr

/-- The 20 conditional-transfer mnemonics, in the source's order (R94, Table 30-3). -/
inductive Cond where
  | je | jl | jle | jb | jbe | jp | jo | js | jne | jnl
  | jg | jnb | ja | jnp | jno | jns | loop | loopz | loopnz | jcxz
  deriving DecidableEq, Repr

/-- The mnemonics of the decoded record (R84). -/
inductive Mnemonic where
  | mov
  | add
  | sub
  | cmp
  | jcc (c : Cond)
  deriving DecidableEq, Repr

/-- The families of the opcode encoding table (R73, Table 30-1). -/
inductive Family where
  | moviReg
  | immRm
  | moviRm
  | rmReg
  | accImm
  | jcc
  deriving DecidableEq, Repr

/-- An instruction. `reg` is a register field, `imm` the immediate held as `u16` (R95), and `s` the bit
`b0[1]` of `IMM_RM` (R88). -/
inductive Instr where
  -- RM_REG
  | movRmReg (d : Dir) (w : Width) (rm : Rm) (reg : BitVec 3)
  | addRmReg (d : Dir) (w : Width) (rm : Rm) (reg : BitVec 3)
  | subRmReg (d : Dir) (w : Width) (rm : Rm) (reg : BitVec 3)
  | cmpRmReg (d : Dir) (w : Width) (rm : Rm) (reg : BitVec 3)
  -- MOVI_REG, MOVI_RM
  | movImmReg (w : Width) (reg : BitVec 3) (imm : Word)
  | movImmRm (w : Width) (rm : Rm) (imm : Word)
  -- IMM_RM
  | addImmRm (s : Bool) (w : Width) (rm : Rm) (imm : Word)
  | subImmRm (s : Bool) (w : Width) (rm : Rm) (imm : Word)
  | cmpImmRm (s : Bool) (w : Width) (rm : Rm) (imm : Word)
  -- ACC_IMM
  | addImmAcc (w : Width) (imm : Word)
  | subImmAcc (w : Width) (imm : Word)
  | cmpImmAcc (w : Width) (imm : Word)
  -- JCC
  | je (rel8 : Byte)
  | jl (rel8 : Byte)
  | jle (rel8 : Byte)
  | jb (rel8 : Byte)
  | jbe (rel8 : Byte)
  | jp (rel8 : Byte)
  | jo (rel8 : Byte)
  | js (rel8 : Byte)
  | jne (rel8 : Byte)
  | jnl (rel8 : Byte)
  | jg (rel8 : Byte)
  | jnb (rel8 : Byte)
  | ja (rel8 : Byte)
  | jnp (rel8 : Byte)
  | jno (rel8 : Byte)
  | jns (rel8 : Byte)
  | loop (rel8 : Byte)
  | loopz (rel8 : Byte)
  | loopnz (rel8 : Byte)
  | jcxz (rel8 : Byte)
  deriving DecidableEq, Repr

end Sys2Proof
end

