-- ==== Sys2Proof/WellFormed.lean ====
section
/-! DEFINITION. Which instruction terms an encoding can express. -/

namespace Sys2Proof

/-- A 16-bit field that the encoding holds in one byte is the sign extension of that byte (R77, R95). -/
def fitsSignedByte (v : Word) : Bool := (v.setWidth 8).signExtend 16 == v

/-- R76-R78: r/m = 110 with mod = 00 is `DirectMemory`, and an 8-bit displacement is sign-extended. -/
def Rm.wf : Rm → Bool
  | .register _ => true
  | .directMemory _ => true
  | .indexedMemory .d8 _ displacement => fitsSignedByte displacement
  | .indexedMemory .d16 _ _ => true
  | .indexedMemoryNoDisplacement base => base != 0b110#3

/-- R85, R89, R92: a byte-width immediate comes from one byte. -/
def immWf : Width → Word → Bool
  | .byte, imm => fitsSignedByte imm
  | .word, _ => true

/-- R88: an `IMM_RM` immediate comes from two bytes only when `s = 0` and `w = 1`. -/
def immRmWf : Bool → Width → Word → Bool
  | false, .word, _ => true
  | _, _, imm => fitsSignedByte imm

/-- The instruction is the decoding of some bytes. -/
def Instr.wf : Instr → Bool
  | .movRmReg _ _ rm _ | .addRmReg _ _ rm _ | .subRmReg _ _ rm _ | .cmpRmReg _ _ rm _ => rm.wf
  | .movImmReg w _ imm => immWf w imm
  | .movImmRm w rm imm => rm.wf && immWf w imm
  | .addImmRm s w rm imm | .subImmRm s w rm imm | .cmpImmRm s w rm imm => rm.wf && immRmWf s w imm
  | .addImmAcc w imm | .subImmAcc w imm | .cmpImmAcc w imm => immWf w imm
  | .je _ | .jl _ | .jle _ | .jb _ | .jbe _ | .jp _ | .jo _ | .js _ | .jne _ | .jnl _
  | .jg _ | .jnb _ | .ja _ | .jnp _ | .jno _ | .jns _ | .loop _ | .loopz _ | .loopnz _ | .jcxz _ => true

end Sys2Proof
end

