-- ==== Sys2Proof/Decode.lean ====
section
/-! DEFINITION. The decoder, total on any bytes (R103), the encoder written from the same tables, and the encoded length. -/

namespace Sys2Proof

/-! ## Bit fields, sign extension and byte order -/

/-- `sext_16` (R12). -/
def sext16 (v : Byte) : Word := v.signExtend 16

/-- `trunc_8` (R12). -/
def trunc8 (v : Word) : Byte := v.setWidth 8

/-- A 2-byte code field is little-endian: the first byte is bits 7:0 (R71). -/
def le16 (lo hi : Byte) : Word := hi ++ lo

/-- The first byte of a 2-byte code field (R71). -/
def loByte (v : Word) : Byte := v.extractLsb' 0 8

/-- The second byte of a 2-byte code field (R71). -/
def hiByte (v : Word) : Byte := v.extractLsb' 8 8

/-- The width bit: 0 is byte, 1 is word (R73). -/
def Width.bit : Width → BitVec 1
  | .byte => 0#1
  | .word => 1#1

/-- The width that a width bit stands for (R73). -/
def Width.ofBit (b : BitVec 1) : Width := if b = 1#1 then .word else .byte

/-- The direction bit (R91). -/
def Dir.bit : Dir → BitVec 1
  | .toRm => 0#1
  | .toReg => 1#1

/-- The direction that a direction bit stands for (R91). -/
def Dir.ofBit (b : BitVec 1) : Dir := if b = 1#1 then .toReg else .toRm

/-- `b[0]`: the width bit of every family but `MOVI_REG` and `JCC` (R73). -/
def bit0 (b : Byte) : BitVec 1 := b.extractLsb' 0 1

/-- `b[1]`: the d bit of `RM_REG` and the s bit of `IMM_RM` (R73). -/
def bit1 (b : Byte) : BitVec 1 := b.extractLsb' 1 1

/-- `b[3]`: the width bit of `MOVI_REG` (R73). -/
def bit3 (b : Byte) : BitVec 1 := b.extractLsb' 3 1

/-- ModRM bits 7:6 (R74). -/
def modField (modrm : Byte) : BitVec 2 := modrm.extractLsb' 6 2

/-- ModRM bits 5:3 (R74). -/
def regField (modrm : Byte) : BitVec 3 := modrm.extractLsb' 3 3

/-- ModRM bits 2:0 (R74), and the reg field of a `MOVI_REG` opcode byte (R73). -/
def rmField (b : Byte) : BitVec 3 := b.extractLsb' 0 3

/-! ## Dispatch (R80) -/

/-- The operations of `IMM_RM` and `ACC_IMM` (R87, R92). -/
inductive AluOp where
  | add
  | sub
  | cmp
  deriving DecidableEq, Repr

/-- The operations of `RM_REG` (R90). -/
inductive RmRegOp where
  | mov
  | alu (op : AluOp)
  deriving DecidableEq, Repr

/-- What a row of Table 30-2 selects: the family, and the mnemonic where the opcode byte fixes it. -/
inductive Entry where
  | jcc (c : Cond)
  | moviRm
  | accImm (op : AluOp)
  | immRm
  | rmReg (op : RmRegOp)
  | moviReg
  deriving DecidableEq, Repr

/-- A row of Table 30-2. -/
structure DispatchRow where
  mask : Byte
  pattern : Byte
  entry : Entry
  deriving DecidableEq, Repr

/-- The opcode byte of each conditional transfer (R94, Table 30-3). -/
def Cond.byte : Cond → Byte
  | .je => 0x74#8
  | .jl => 0x7C#8
  | .jle => 0x7E#8
  | .jb => 0x72#8
  | .jbe => 0x76#8
  | .jp => 0x7A#8
  | .jo => 0x70#8
  | .js => 0x78#8
  | .jne => 0x75#8
  | .jnl => 0x7D#8
  | .jg => 0x7F#8
  | .jnb => 0x73#8
  | .ja => 0x77#8
  | .jnp => 0x7B#8
  | .jno => 0x71#8
  | .jns => 0x79#8
  | .loop => 0xE2#8
  | .loopz => 0xE1#8
  | .loopnz => 0xE0#8
  | .jcxz => 0xE3#8

/-- The 20 conditional transfers in the order of Table 30-3. -/
def Cond.all : List Cond :=
  [.je, .jl, .jle, .jb, .jbe, .jp, .jo, .js, .jne, .jnl] ++
  [.jg, .jnb, .ja, .jnp, .jno, .jns, .loop, .loopz, .loopnz, .jcxz]

/-- The ordered dispatch table, most specific mask first (R80, Table 30-2). -/
def dispatchTable : List DispatchRow :=
  Cond.all.map (fun c => ⟨0xFF#8, c.byte, .jcc c⟩) ++
  [⟨0xFE#8, 0xC6#8, .moviRm⟩,
   ⟨0xFE#8, 0x04#8, .accImm .add⟩,
   ⟨0xFE#8, 0x2C#8, .accImm .sub⟩,
   ⟨0xFE#8, 0x3C#8, .accImm .cmp⟩,
   ⟨0xFC#8, 0x80#8, .immRm⟩,
   ⟨0xFC#8, 0x88#8, .rmReg .mov⟩,
   ⟨0xFC#8, 0x00#8, .rmReg (.alu .add)⟩,
   ⟨0xFC#8, 0x28#8, .rmReg (.alu .sub)⟩,
   ⟨0xFC#8, 0x38#8, .rmReg (.alu .cmp)⟩,
   ⟨0xF0#8, 0xB0#8, .moviReg⟩]

/-- A row matches when `(b0 AND mask) = pattern` (R80). -/
def DispatchRow.matchesByte (row : DispatchRow) (b0 : Byte) : Bool := b0 &&& row.mask == row.pattern

/-- `Dispatch(b0)`: the first matching row wins (R80). -/
def dispatch (b0 : Byte) : Option Entry :=
  (dispatchTable.find? (·.matchesByte b0)).map (·.entry)

/-! ## Code fetch (R72)

The fetch pointer `FP` of R72 is the list of the code bytes not yet consumed; `none` is a fetch at `FP >= L`. -/

/-- `Fetch8()` (R72). -/
def fetch8 : List Byte → Option (Byte × List Byte)
  | [] => none
  | b :: rest => some (b, rest)

/-- `Fetch16()`: two bytes, little-endian; one byte left is not enough (R72). -/
def fetch16 : List Byte → Option (Word × List Byte)
  | lo :: hi :: rest => some (le16 lo hi, rest)
  | _ => none

/-- `sext_16(Fetch8())` (R77, R95). -/
def fetchSext (bytes : List Byte) : Option (Word × List Byte) :=
  match fetch8 bytes with
  | none => none
  | some (b, rest) => some (sext16 b, rest)

/-- `DecodeOperand(mod, w, rm)` (R75-R79); the width is added by `Rm.operand`. -/
def decodeOperand (mod : BitVec 2) (rm : BitVec 3) (bytes : List Byte) : Option (Rm × List Byte) :=
  if mod = 0b11#2 then some (.register rm, bytes)
  else if mod = 0b00#2 then
    if rm = 0b110#3 then
      match fetch16 bytes with
      | none => none
      | some (a, rest) => some (.directMemory a, rest)
    else some (.indexedMemoryNoDisplacement rm, bytes)
  else if mod = 0b01#2 then
    match fetchSext bytes with
    | none => none
    | some (d, rest) => some (.indexedMemory .d8 rm d, rest)
  else
    match fetch16 bytes with
    | none => none
    | some (d, rest) => some (.indexedMemory .d16 rm d, rest)

/-- The immediate of `MOVI_REG`, `MOVI_RM` and `ACC_IMM` (R85, R89, R92). -/
def fetchImm : Width → List Byte → Option (Word × List Byte)
  | .byte, bytes => fetchSext bytes
  | .word, bytes => fetch16 bytes

/-- `ImmRM(s, w)` (R88): two bytes only for `s = 0`, `w = 1`. -/
def fetchImmRm (s : Bool) (w : Width) (bytes : List Byte) : Option (Word × List Byte) :=
  match s, w with
  | false, .word => fetch16 bytes
  | _, _ => fetchSext bytes

/-- `SubOp80(sub)` (R87); `none` raises `UnsupportedEncoding`. -/
def subOp80 (sub : BitVec 3) : Option AluOp :=
  if sub = 0b000#3 then some .add
  else if sub = 0b101#3 then some .sub
  else if sub = 0b111#3 then some .cmp
  else none

/-! ## Per-family decode (R84-R93) -/

/-- What decoding at a stream position gives (R103). -/
inductive Decoded where
  /-- A decoded instruction, with the code bytes after it. -/
  | instr (i : Instr) (rest : List Byte)
  /-- No byte is left at the instruction boundary (R111). -/
  | endOfStream
  /-- A leading byte that no row of the dispatch table matches (R83). -/
  | unrecognised (b0 : Byte)
  /-- The instruction needs more bytes than remain: `TruncatedStream` (R72, R222). -/
  | truncated
  /-- The secondary field is outside the subset: `UnsupportedEncoding` (R87, R89, R223). -/
  | unsupported
  deriving DecidableEq, Repr

/-- The `RM_REG` instruction of an operation (R90). -/
def Instr.ofRmReg : RmRegOp → Dir → Width → Rm → BitVec 3 → Instr
  | .mov => .movRmReg
  | .alu .add => .addRmReg
  | .alu .sub => .subRmReg
  | .alu .cmp => .cmpRmReg

/-- The `IMM_RM` instruction of an operation (R86). -/
def Instr.ofImmRm : AluOp → Bool → Width → Rm → Word → Instr
  | .add => .addImmRm
  | .sub => .subImmRm
  | .cmp => .cmpImmRm

/-- The `ACC_IMM` instruction of an operation (R92). -/
def Instr.ofAccImm : AluOp → Width → Word → Instr
  | .add => .addImmAcc
  | .sub => .subImmAcc
  | .cmp => .cmpImmAcc

/-- The `JCC` instruction of a mnemonic (R93). -/
def Instr.ofCond : Cond → Byte → Instr
  | .je => .je
  | .jl => .jl
  | .jle => .jle
  | .jb => .jb
  | .jbe => .jbe
  | .jp => .jp
  | .jo => .jo
  | .js => .js
  | .jne => .jne
  | .jnl => .jnl
  | .jg => .jg
  | .jnb => .jnb
  | .ja => .ja
  | .jnp => .jnp
  | .jno => .jno
  | .jns => .jns
  | .loop => .loop
  | .loopz => .loopz
  | .loopnz => .loopnz
  | .jcxz => .jcxz

/-- Decode of `JCC` (R93). -/
def decodeJcc (c : Cond) (bytes : List Byte) : Decoded :=
  match fetch8 bytes with
  | none => .truncated
  | some (rel8, rest) => .instr (.ofCond c rel8) rest

/-- Decode of `MOVI_REG` (R85). -/
def decodeMoviReg (b0 : Byte) (bytes : List Byte) : Decoded :=
  match fetchImm (.ofBit (bit3 b0)) bytes with
  | none => .truncated
  | some (imm, rest) => .instr (.movImmReg (.ofBit (bit3 b0)) (rmField b0) imm) rest

/-- Decode of `ACC_IMM` (R92). -/
def decodeAccImm (op : AluOp) (b0 : Byte) (bytes : List Byte) : Decoded :=
  match fetchImm (.ofBit (bit0 b0)) bytes with
  | none => .truncated
  | some (imm, rest) => .instr (.ofAccImm op (.ofBit (bit0 b0)) imm) rest

/-- Decode of `RM_REG` (R90). -/
def decodeRmReg (op : RmRegOp) (b0 : Byte) (bytes : List Byte) : Decoded :=
  match fetch8 bytes with
  | none => .truncated
  | some (modrm, afterModrm) =>
    match decodeOperand (modField modrm) (rmField modrm) afterModrm with
    | none => .truncated
    | some (rm, rest) =>
      .instr (.ofRmReg op (.ofBit (bit1 b0)) (.ofBit (bit0 b0)) rm (regField modrm)) rest

/-- The s bit of `IMM_RM` (R86). -/
def sBit (b0 : Byte) : Bool := bit1 b0 == 1#1

/-- Decode of `IMM_RM` (R86): the secondary field is checked before any displacement is fetched (R99). -/
def decodeImmRm (b0 : Byte) (bytes : List Byte) : Decoded :=
  match fetch8 bytes with
  | none => .truncated
  | some (modrm, afterModrm) =>
    match subOp80 (regField modrm) with
    | none => .unsupported
    | some op =>
      match decodeOperand (modField modrm) (rmField modrm) afterModrm with
      | none => .truncated
      | some (rm, afterRm) =>
        match fetchImmRm (sBit b0) (.ofBit (bit0 b0)) afterRm with
        | none => .truncated
        | some (imm, rest) => .instr (.ofImmRm op (sBit b0) (.ofBit (bit0 b0)) rm imm) rest

/-- Decode of `MOVI_RM` (R89): the reg field must be 000, checked before any displacement (R99). -/
def decodeMoviRm (b0 : Byte) (bytes : List Byte) : Decoded :=
  match fetch8 bytes with
  | none => .truncated
  | some (modrm, afterModrm) =>
    if regField modrm ≠ 0b000#3 then .unsupported
    else
      match decodeOperand (modField modrm) (rmField modrm) afterModrm with
      | none => .truncated
      | some (rm, afterRm) =>
        match fetchImm (.ofBit (bit0 b0)) afterRm with
        | none => .truncated
        | some (imm, rest) => .instr (.movImmRm (.ofBit (bit0 b0)) rm imm) rest

/-- `Decode(e, b0)` (R113): the family rule of a dispatch entry, on the bytes after the leading one. -/
def decodeEntry : Entry → Byte → List Byte → Decoded
  | .jcc c, _, bytes => decodeJcc c bytes
  | .moviRm, b0, bytes => decodeMoviRm b0 bytes
  | .accImm op, b0, bytes => decodeAccImm op b0 bytes
  | .immRm, b0, bytes => decodeImmRm b0 bytes
  | .rmReg op, b0, bytes => decodeRmReg op b0 bytes
  | .moviReg, b0, bytes => decodeMoviReg b0 bytes

/-- Decoding from the code bytes that are left at the stream position (R111-R114). -/
def decode : List Byte → Decoded
  | [] => .endOfStream
  | b0 :: bytes =>
    match dispatch b0 with
    | none => .unrecognised b0
    | some e => decodeEntry e b0 bytes

/-! ## The encoder -/

/-- The mod field that selects an r/m operand (R79). -/
def Rm.mod : Rm → BitVec 2
  | .register _ => 0b11#2
  | .directMemory _ => 0b00#2
  | .indexedMemory .d8 _ _ => 0b01#2
  | .indexedMemory .d16 _ _ => 0b10#2
  | .indexedMemoryNoDisplacement _ => 0b00#2

/-- The r/m field of an r/m operand (R79). -/
def Rm.field : Rm → BitVec 3
  | .register index => index
  | .directMemory _ => 0b110#3
  | .indexedMemory _ base _ => base
  | .indexedMemoryNoDisplacement base => base

/-- A two-byte code field (R71). -/
def wordBytes (v : Word) : List Byte := [loByte v, hiByte v]

/-- A one-byte field that is sign-extended when decoded (R77, R95). -/
def byteBytes (v : Word) : List Byte := [trunc8 v]

/-- The displacement bytes of an r/m operand (R79). -/
def Rm.dispBytes : Rm → List Byte
  | .register _ => []
  | .directMemory address => wordBytes address
  | .indexedMemory .d8 _ displacement => byteBytes displacement
  | .indexedMemory .d16 _ displacement => wordBytes displacement
  | .indexedMemoryNoDisplacement _ => []

/-- The immediate bytes of `MOVI_REG`, `MOVI_RM` and `ACC_IMM` (R85, R89, R92). -/
def immBytes : Width → Word → List Byte
  | .byte, imm => byteBytes imm
  | .word, imm => wordBytes imm

/-- The immediate bytes of `IMM_RM` (R88). -/
def immRmBytes : Bool → Width → Word → List Byte
  | false, .word, imm => wordBytes imm
  | _, _, imm => byteBytes imm

/-- The ModRM byte and the displacement after it (R70, R74). -/
def modrmBytes (reg : BitVec 3) (rm : Rm) : List Byte := (rm.mod ++ reg ++ rm.field) :: rm.dispBytes

/-- A `RM_REG` instruction: `oooooodw`, ModRM, displacement (Table 30-1). -/
def encodeRmReg (opcode : BitVec 6) (d : Dir) (w : Width) (rm : Rm) (reg : BitVec 3) : List Byte :=
  (opcode ++ d.bit ++ w.bit) :: modrmBytes reg rm

/-- An `IMM_RM` instruction: `100000sw`, ModRM with the secondary opcode, displacement, immediate (Table 30-1, R87). -/
def encodeImmRm (sub : BitVec 3) (s : Bool) (w : Width) (rm : Rm) (imm : Word) : List Byte :=
  (0b100000#6 ++ BitVec.ofBool s ++ w.bit) :: modrmBytes sub rm ++ immRmBytes s w imm

/-- An `ACC_IMM` instruction: `ooooooow`, immediate (Table 30-1). -/
def encodeAccImm (opcode : BitVec 7) (w : Width) (imm : Word) : List Byte :=
  (opcode ++ w.bit) :: immBytes w imm

/-- A `JCC` instruction: the exact code, rel8 (Table 30-1, R93). -/
def encodeJcc (c : Cond) (rel8 : Byte) : List Byte := [c.byte, rel8]

/-- The bytes of an instruction (R70-R95). -/
def encode : Instr → List Byte
  | .movRmReg d w rm reg => encodeRmReg 0b100010#6 d w rm reg
  | .addRmReg d w rm reg => encodeRmReg 0b000000#6 d w rm reg
  | .subRmReg d w rm reg => encodeRmReg 0b001010#6 d w rm reg
  | .cmpRmReg d w rm reg => encodeRmReg 0b001110#6 d w rm reg
  | .movImmReg w reg imm => (0b1011#4 ++ w.bit ++ reg) :: immBytes w imm
  | .movImmRm w rm imm => (0b1100011#7 ++ w.bit) :: modrmBytes 0b000#3 rm ++ immBytes w imm
  | .addImmRm s w rm imm => encodeImmRm 0b000#3 s w rm imm
  | .subImmRm s w rm imm => encodeImmRm 0b101#3 s w rm imm
  | .cmpImmRm s w rm imm => encodeImmRm 0b111#3 s w rm imm
  | .addImmAcc w imm => encodeAccImm 0b0000010#7 w imm
  | .subImmAcc w imm => encodeAccImm 0b0010110#7 w imm
  | .cmpImmAcc w imm => encodeAccImm 0b0011110#7 w imm
  | .je rel8 => encodeJcc .je rel8
  | .jl rel8 => encodeJcc .jl rel8
  | .jle rel8 => encodeJcc .jle rel8
  | .jb rel8 => encodeJcc .jb rel8
  | .jbe rel8 => encodeJcc .jbe rel8
  | .jp rel8 => encodeJcc .jp rel8
  | .jo rel8 => encodeJcc .jo rel8
  | .js rel8 => encodeJcc .js rel8
  | .jne rel8 => encodeJcc .jne rel8
  | .jnl rel8 => encodeJcc .jnl rel8
  | .jg rel8 => encodeJcc .jg rel8
  | .jnb rel8 => encodeJcc .jnb rel8
  | .ja rel8 => encodeJcc .ja rel8
  | .jnp rel8 => encodeJcc .jnp rel8
  | .jno rel8 => encodeJcc .jno rel8
  | .jns rel8 => encodeJcc .jns rel8
  | .loop rel8 => encodeJcc .loop rel8
  | .loopz rel8 => encodeJcc .loopz rel8
  | .loopnz rel8 => encodeJcc .loopnz rel8
  | .jcxz rel8 => encodeJcc .jcxz rel8

/-! ## Lengths (R102) -/

/-- The bytes `DecodeOperand` consumes (R79). -/
def Rm.extraBytes : Rm → Nat
  | .register _ => 0
  | .directMemory _ => 2
  | .indexedMemory .d8 _ _ => 1
  | .indexedMemory .d16 _ _ => 2
  | .indexedMemoryNoDisplacement _ => 0

/-- The immediate size of `MOVI_REG`, `MOVI_RM` and `ACC_IMM` (R102). -/
def immSize : Width → Nat
  | .byte => 1
  | .word => 2

/-- The immediate size of `IMM_RM` (R88, R102). -/
def immRmSize : Bool → Width → Nat
  | false, .word => 2
  | _, _ => 1

/-- The instruction length `n` in bytes (R102). -/
def Instr.length : Instr → Nat
  | .movRmReg _ _ rm _ | .addRmReg _ _ rm _ | .subRmReg _ _ rm _ | .cmpRmReg _ _ rm _ => 2 + rm.extraBytes
  | .movImmReg w _ _ => 1 + immSize w
  | .movImmRm w rm _ => 2 + rm.extraBytes + immSize w
  | .addImmRm s w rm _ | .subImmRm s w rm _ | .cmpImmRm s w rm _ => 2 + rm.extraBytes + immRmSize s w
  | .addImmAcc w _ | .subImmAcc w _ | .cmpImmAcc w _ => 1 + immSize w
  | .je _ | .jl _ | .jle _ | .jb _ | .jbe _ | .jp _ | .jo _ | .js _ | .jne _ | .jnl _
  | .jg _ | .jnb _ | .ja _ | .jnp _ | .jno _ | .jns _ | .loop _ | .loopz _ | .loopnz _ | .jcxz _ => 2

/-- `MAX_ILEN` (R10, R102). -/
def maxIlen : Nat := 6

/-! ## The host's reading of an instruction word -/

/-- The low byte first: the `n` bytes of `w` as the code stream holds them. -/
def bytesOfNat : Nat → Nat → List Byte
  | 0, _ => []
  | n + 1, w => BitVec.ofNat 8 w :: bytesOfNat n (w / 256)

/-- The bytes of a table word of `nbits` bits: `MAX_ILEN` bytes, zero above `nbits`. -/
def tableWordBytes (nbits w : Nat) : List Byte := bytesOfNat maxIlen (w % 2 ^ nbits)

/-- The instruction the decoder reads from a table word (none where it refuses). -/
def decodeTableWord (nbits w : Nat) : Option Instr :=
  match decode (tableWordBytes nbits w) with
  | .instr i _ => some i
  | .endOfStream | .unrecognised _ | .truncated | .unsupported => none

end Sys2Proof
end

