-- ==== Sys2Proof/Config.lean ====
section
/-! DEFINITION. The parameters of the core (00_scope.md R10, Table 00-1), and the free values that stand for its OPEN ones. -/

namespace Sys2Proof

/-- `MEM_READ_EXT`: how the byte read from memory fills a word operand (R60, D7). -/
inductive MemReadExt where
  | zero
  | sign
  deriving DecidableEq, Repr

/-- `BYTE_FLAG_BASIS`: what the flags of a byte result are computed from (R28, D9). -/
inductive ByteFlagBasis where
  | byteResult
  | zext16
  deriving DecidableEq, Repr

/-- `MEM_ARITH`: memory-operand arithmetic; `byte_granular` is its only defined value (R154, D8). -/
inductive MemArith where
  | byteGranular
  deriving DecidableEq, Repr

/-- One row of Table 60-1 without its last column: the base costs of a mnemonic by operand class (R236, R237). -/
structure BaseCosts where
  regReg : Nat
  regMem : Nat
  memReg : Nat
  regImm : Nat
  memImm : Nat
  deriving DecidableEq, Repr

/-- A row of Table 60-1 with the `acc_imm` column, which `mov` does not have (R237). -/
structure AluCosts extends BaseCosts where
  accImm : Nat
  deriving DecidableEq, Repr

/-- `CYC_TABLE`: every cell of Tables 60-1 and 60-2 is a field (R237, R238). -/
structure CycTable where
  mov : BaseCosts
  add : AluCosts
  sub : AluCosts
  cmp : AluCosts
  /-- The `mod = 00` column of Table 60-2, by r/m; row 110 is `DirectMemory`. -/
  eaNoDisp : Vector Nat 8
  /-- The `IndexedMemory` column of Table 60-2, by r/m. -/
  eaDisp : Vector Nat 8
  deriving DecidableEq, Repr

/-- The parameters a run is launched with and keeps (R126, R266). -/
structure Params where
  memReadExt : MemReadExt
  byteFlagBasis : ByteFlagBasis
  memArith : MemArith
  cycTable : CycTable
  /-- `CYC_JNE_TAKEN` (OPEN, R185). -/
  cycJneTaken : Nat
  /-- `CYC_JNE_NOT_TAKEN` (OPEN, R185). -/
  cycJneNotTaken : Nat
  /-- `CYC_JCC_OTHER` (OPEN, R185). -/
  cycJccOther : Nat
  deriving DecidableEq, Repr

/-- DESIGN CHOICE, log entry 2: the free value of the OPEN parameter `CYC_JNE_TAKEN`. -/
opaque Config.cycJneTaken : Nat

/-- DESIGN CHOICE, log entry 2: the free value of the OPEN parameter `CYC_JNE_NOT_TAKEN`. -/
opaque Config.cycJneNotTaken : Nat

/-- DESIGN CHOICE, log entry 2: the free value of the OPEN parameter `CYC_JCC_OTHER`. -/
opaque Config.cycJccOther : Nat

end Sys2Proof
end

