-- ==== Sys2Proof/Machine/Launch.lean ====
section
/-! DEFINITION. What the host supplies before a run (R126, R266), and the values State.reset is launched with. -/

namespace Sys2Proof.Machine

/-- The run arguments: the byte source, the mode, the parameters, and `RESET_REGS` (R10, R266). -/
structure Launch where
  code : List Byte
  simulate : Bool
  params : Params
  resetRegs : Vector Word 8
  deriving DecidableEq, Repr

/-- The default cells of Tables 60-1 and 60-2 (R237, R238; log entry 3). -/
def defaultCycTable : CycTable where
  mov := { regReg := 2, regMem := 8, memReg := 9, regImm := 4, memImm := 10 }
  add := { regReg := 3, regMem := 9, memReg := 16, regImm := 4, memImm := 17, accImm := 4 }
  sub := { regReg := 3, regMem := 9, memReg := 16, regImm := 4, memImm := 17, accImm := 4 }
  cmp := { regReg := 3, regMem := 9, memReg := 9, regImm := 4, memImm := 10, accImm := 4 }
  eaNoDisp := #v[7, 8, 8, 7, 5, 5, 6, 5]
  eaDisp := #v[11, 12, 12, 11, 9, 9, 9, 9]

/-- The defaults of Table 00-1 (R10; log entry 3), and free values for its OPEN parameters (log entry 2). -/
def defaultParams : Params where
  memReadExt := .zero
  byteFlagBasis := .byteResult
  memArith := .byteGranular
  cycTable := defaultCycTable
  cycJneTaken := Config.cycJneTaken
  cycJneNotTaken := Config.cycJneNotTaken
  cycJccOther := Config.cycJccOther

/-- The default of `RESET_REGS`: all eight slots 0x0000 (R10, R260; log entry 4). -/
def defaultResetRegs : Vector Word 8 := #v[0, 0, 0, 0, 0, 0, 0, 0]

/-- DESIGN CHOICE, log entries 5 and 6: State.reset is launched in simulation mode with an empty byte source. -/
def defaultLaunch : Launch where
  code := []
  simulate := true
  params := defaultParams
  resetRegs := defaultResetRegs

end Sys2Proof.Machine
end

