-- ==== Sys2Proof/Machine/Memory.lean ====
section
/-! DEFINITION. The data memory: 65536 bytes, held as the list of the bytes that differ from the reset byte (R37, R50). -/

namespace Sys2Proof.Machine

/-- Data memory: (address, byte) pairs, addresses strictly rising, no listed byte equal to `unlistedByte`. -/
abbrev Memory := List Host.Cell

/-- What an unlisted address reads as: memory is "zero-initialized" (R50, R260). -/
def unlistedByte : Byte := 0x00#8

/-- `MEMSIZE`: every address is below it (R10, R50). -/
def memSize : Nat := 65536

/-- Every listed address is above `low`, below `memSize`, in strictly rising order, with a byte that needs listing. -/
def Memory.wfFrom (low : Nat) : Memory → Bool
  | [] => true
  | (a, b) :: rest => low ≤ a && a < memSize && b != unlistedByte && Memory.wfFrom (a + 1) rest

/-- The canonical form: two well-formed memories that read alike are equal. -/
def Memory.wf (m : Memory) : Bool := Memory.wfFrom 0 m

/-- The byte at an address. -/
def Memory.get : Memory → Nat → Byte
  | [], _ => unlistedByte
  | (k, b) :: rest, a => if k = a then b else Memory.get rest a

/-- A new list head, unless the byte is what an unlisted address reads as. -/
def Memory.cons (a : Nat) (v : Byte) (rest : Memory) : Memory :=
  if v = unlistedByte then rest else (a, v) :: rest

/-- The memory with one byte written, in canonical form. -/
def Memory.set : Memory → Nat → Byte → Memory
  | [], a, v => Memory.cons a v []
  | (k, b) :: rest, a, v =>
    if a < k then Memory.cons a v ((k, b) :: rest)
    else if a = k then Memory.cons a v rest
    else (k, b) :: Memory.set rest a v

end Sys2Proof.Machine
end

