-- ==== Sys2Proof/Machine/Trace.lean ====
section
/-! DEFINITION. Operands, the decoded record and the records of the trace port (R55, R84, R245-R249). -/

namespace Sys2Proof.Machine

/-- The three memory variants of the operand union (R55). -/
inductive MemOperand where
  | directMemory (address : Word)
  | indexedMemory (base : BitVec 3) (displacement : Word)
  | indexedMemoryNoDisplacement (base : BitVec 3)
  deriving DecidableEq, Repr

/-- The operand union `Rm` (R55): `Register{width, index}` or one of the memory variants. -/
inductive Operand where
  | register (width : Width) (index : BitVec 3)
  | memory (m : MemOperand)
  deriving DecidableEq, Repr

/-- The two condition flags, `{zero: bool, sign: bool}` (R26). -/
structure Flags where
  zf : Bool
  sf : Bool
  deriving DecidableEq, Repr

/-- The flags as records and reports show them: the pair and the flag string (R248, log entry 14). -/
structure FlagsView where
  zf : Bool
  sf : Bool
  text : String
  deriving DecidableEq, Repr

/-- A destination value in a record: `u8` or `u16` (R245, R246). -/
inductive Value where
  | u8 (v : Byte)
  | u16 (v : Word)
  deriving DecidableEq, Repr

/-- The decoded-instruction record, which lives only within a step (R84). -/
structure DecodedInstr where
  start : Pos
  length : Nat
  family : Family
  mnemonic : Mnemonic
  width : Option Width
  dst : Option Operand
  src : Option Operand
  imm : Option Word
  rel8 : Option Byte
  deriving DecidableEq, Repr

/-- `DecodeRecord` (R245). -/
structure DecodeRecord where
  start : Pos
  length : Nat
  bytes : List Byte
  mnemonic : Mnemonic
  width : Option Width
  dst : Option Operand
  src : Option Operand
  imm : Option Word
  rel8 : Option Byte
  deriving DecidableEq, Repr

/-- `SimRecord` (R245): a `DecodeRecord` with the simulation-mode fields. -/
structure SimRecord extends DecodeRecord where
  oldValue : Option Value
  newValue : Option Value
  oldFlags : FlagsView
  newFlags : FlagsView
  cyclesInc : Nat
  cyclesTotal : BitVec 64
  oldIp : Pos
  newIp : Pos
  deriving DecidableEq, Repr

/-- What the trace port can carry (R8). -/
inductive TraceItem where
  /-- A decoded instruction in decode-only mode (R116, R245). -/
  | decodeRecord (r : DecodeRecord)
  /-- An executed instruction (R245). -/
  | simRecord (r : SimRecord)
  /-- `Unrecognised{pos, byte, count}` (R247). -/
  | unrecognised (pos : Pos) (byte : Byte) (count : BitVec 32)
  /-- `FinalReport{regs, ip, flags}` (R249). -/
  | finalReport (regs : Vector Word 8) (ip : Pos) (flags : FlagsView)
  deriving DecidableEq, Repr

end Sys2Proof.Machine
end

