-- ==== Sys2Proof/Machine/State.lean ====
section
/-! DEFINITION. The state of the core (R40, Table 10-2), its reset (R260), and the reasons a step can stop. -/

namespace Sys2Proof.Machine

/-- `STATUS` (R36) with the halt information of the status output (R221; log entry 9). Codes 5-7 are never
produced and cannot be written down (D26, D27; log entry 11). -/
inductive Status where
  | running
  | cleanEnd
  | truncatedStream (p0 : Pos)
  | unsupportedEncoding (p0 : Pos)
  | seekFault (p0 : Pos) (target : Int)
  deriving DecidableEq, Repr

/-- The state of the core, the run inputs it keeps for the run, and its trace port. -/
structure State where
  /-- `R[0] .. R[7]` (R20). -/
  regs : Vector Word 8
  /-- `ZF` and `SF` (R26). -/
  flags : Flags
  /-- `IP`, the stream position (R30). -/
  ip : Pos
  /-- `M[0 .. 65535]` (R37). -/
  mem : Memory
  /-- `CYC` (R33). -/
  cyc : BitVec 64
  /-- `UNREC` (R34). -/
  unrec : BitVec 32
  /-- `SIMULATE`, constant for the run (R35). -/
  simulate : Bool
  /-- `STATUS` (R36). -/
  status : Status
  /-- `CODE`, the byte source; its length is `L`; constant for the run (R6). -/
  code : List Byte
  /-- The parameters of Table 00-1 that a step reads; constant for the run (R10, R126; log entry 1). -/
  params : Params
  /-- The records the trace port has emitted, oldest first (R8; log entry 10). -/
  trace : List TraceItem
  deriving DecidableEq, Repr

/-- Why the machine stops with a fault. -/
inductive Fault where
  /-- Raised by `step` when `STATUS` is not `RUNNING`: "the core has no step: the run is over" (R110).
  Safe: the model goes no further where the core goes no further (log entry 8). -/
  | notRunning
  deriving DecidableEq, Repr

/-- Why the model gives an instruction no meaning. -/
inductive Refusal where
  /-- Raised by an arm of `exec` for an instruction without a meaning yet. No arm raises it now. Safe. -/
  | notModelled (mnemonic : String)
  deriving DecidableEq, Repr

/-- The state a run starts from: every run is a fresh instance (R260, R263). -/
def State.launch (l : Launch) : State where
  regs := l.resetRegs
  flags := { zf := false, sf := false }
  ip := 0
  mem := []
  cyc := 0
  unrec := 0
  simulate := l.simulate
  status := .running
  code := l.code
  params := l.params
  trace := []

/-- The machine right after reset, with the default run arguments (R260; log entries 2 to 6). -/
def State.reset : State := State.launch defaultLaunch

end Sys2Proof.Machine
end

