-- ==== Sys2Proof/Machine/Flags.lean ====
section
/-! DEFINITION. Every flag computation of the core (R26-R28, R41, R153). -/

namespace Sys2Proof.Machine

/-- `ZF` of a result of width `w`: `r == 0` (R27, R28). -/
def zeroFlag (w : Width) (r : w.Val) : Bool := r == 0

/-- `SF` of a result of width `w`: the sign bit, but 0 for a byte result under `zext16` (R27, R28). -/
def signFlag (basis : ByteFlagBasis) (w : Width) (r : w.Val) : Bool :=
  match w, basis with
  | .word, _ => r.msb
  | .byte, .byteResult => r.msb
  | .byte, .zext16 => false

/-- The flags of a result (R28). -/
def flagsOf (basis : ByteFlagBasis) (w : Width) (r : w.Val) : Flags where
  zf := zeroFlag w r
  sf := signFlag basis w r

/-- `SetFlags(r, w)`: both flags are written, never one of them (R28, R29). -/
def setFlags (s : State) (w : Width) (r : w.Val) : State :=
  { s with flags := flagsOf s.params.byteFlagBasis w r }

/-- The flag string (R41). -/
def Flags.text (f : Flags) : String :=
  match f.zf, f.sf with
  | false, false => ""
  | true, false => "Z"
  | false, true => "S"
  | true, true => "ZS"

/-- The flags as a record shows them (R248). -/
def Flags.view (f : Flags) : FlagsView where
  zf := f.zf
  sf := f.sf
  text := f.text

end Sys2Proof.Machine
end

