-- ==== Sys2Proof/Machine/Ops.lean ====
section
/-! DEFINITION. The named operations over registers, memory, the code stream and the trace port, and the fatal halt. -/

namespace Sys2Proof.Machine

/-! ## Registers (R20-R23) -/

/-- `R[i]` (R21). -/
def wordReg (s : State) (i : BitVec 3) : Word := s.regs[i.toNat]'i.isLt

/-- `R[i] <- v` (R21). -/
def setWordReg (s : State) (i : BitVec 3) (v : Word) : State :=
  { s with regs := s.regs.set i.toNat v i.isLt }

/-- A byte index below 4 names a low half (R22). -/
def isLowHalf (i : BitVec 3) : Bool := i.toNat < 4

/-- The word slot that byte index `i` lies in: `i` or `i - 4` (R22). -/
def byteSlot (i : BitVec 3) : BitVec 3 := if isLowHalf i then i else i - 4

/-- `Reg8(i)` (R22). -/
def byteReg (s : State) (i : BitVec 3) : Byte :=
  if isLowHalf i then loByte (wordReg s (byteSlot i)) else hiByte (wordReg s (byteSlot i))

/-- `Reg8(i) <- v`: the other half of the slot stays (R23). -/
def setByteReg (s : State) (i : BitVec 3) (v : Byte) : State :=
  let old := wordReg s (byteSlot i)
  setWordReg s (byteSlot i) (if isLowHalf i then le16 v (hiByte old) else le16 (loByte old) v)

/-! ## Data memory (R51, R52) -/

/-- `MemRead(a, 1)` (R51). -/
def memRead (s : State) (a : Word) : Byte := s.mem.get a.toNat

/-- `MemWrite(a, 1, v)` (R52). -/
def memWrite (s : State) (a : Word) (v : Byte) : State :=
  { s with mem := s.mem.set a.toNat v }

/-! ## The code stream (R6, R72, R112) -/

/-- The code bytes from `IP` to the end of the stream: none when `IP >= L` (R111, R112). -/
def fetchBytes (s : State) : List Byte := s.code.drop s.ip.toNat

/-- "The position immediately after the instruction" at `IP`, of `n` bytes (R115). -/
def ipAfter (s : State) (n : Nat) : Pos := s.ip + BitVec.ofNat 32 n

/-- `ipNext +Z s8(rel8)`, in unbounded integers, for the 2-byte jump at `IP` (R180, R195). -/
def jumpTarget (s : State) (rel8 : Byte) : Int := (s.ip.toNat : Int) + 2 + rel8.toInt

/-- The code stream with bytes placed at a position; a gap before it is filled with zeros. -/
def placeBytes (code : List Byte) (pos : Nat) (bytes : List Byte) : List Byte :=
  code.take pos ++ List.replicate (pos - code.length) 0 ++ bytes ++ code.drop (pos + bytes.length)

/-! ## The trace port (R8) -/

/-- `emit`: records leave in program execution order (R8). -/
def emit (s : State) (item : TraceItem) : State :=
  { s with trace := s.trace ++ [item] }

/-! ## The status output (R9, R36) -/

/-- The code of `STATUS` on the status output (R36). -/
def statusCode : Status → BitVec 3
  | .running => 0
  | .cleanEnd => 1
  | .truncatedStream _ => 2
  | .unsupportedEncoding _ => 3
  | .seekFault _ _ => 4

/-! ## Ends of a step other than a completed instruction -/

/-- `raise H(info)`: the step commits and emits nothing, `IP` stays `p0`, and `STATUS` takes the halt's code with
its information (R221-R224). There is no return from a halt (R231). Log entry 8: a halt is a next state. -/
def raise (halt : Status) (s : State) : Host.Outcome State Fault Refusal :=
  .next { s with status := halt }

/-- The unrecognised-byte skip (R83, R225, R247). -/
def skip (b0 : Byte) (s : State) : State :=
  emit { s with ip := ipAfter s 1, unrec := s.unrec + 1 } (.unrecognised s.ip b0 (s.unrec + 1))

/-- The clean end of the stream, with the final-state report in simulation mode (R111, R226, R249). -/
def endRun (s : State) : State :=
  if s.simulate then
    emit { s with status := .cleanEnd } (.finalReport s.regs s.ip s.flags.view)
  else { s with status := .cleanEnd }

end Sys2Proof.Machine
end

