-- ==== Sys2Proof/Machine/Operands.lean ====
section
/-! DEFINITION. Every operand form: construction, effective address, read and write (R55-R61). -/

namespace Sys2Proof.Machine

/-- The operand that an encoded r/m operand stands for at width `w` (R75-R78). -/
def rmOperand (w : Width) : Rm → Operand
  | .register index => .register w index
  | .directMemory address => .memory (.directMemory address)
  | .indexedMemory _ base displacement => .memory (.indexedMemory base displacement)
  | .indexedMemoryNoDisplacement base => .memory (.indexedMemoryNoDisplacement base)

/-- The destination of a `RM_REG` instruction (R90, R91). -/
def rmRegDst (d : Dir) (w : Width) (rm : Rm) (reg : BitVec 3) : Operand :=
  match d with
  | .toRm => rmOperand w rm
  | .toReg => .register w reg

/-- The source of a `RM_REG` instruction (R90, R91). -/
def rmRegSrc (d : Dir) (w : Width) (rm : Rm) (reg : BitVec 3) : Operand :=
  match d with
  | .toRm => .register w reg
  | .toReg => rmOperand w rm

/-- The accumulator of the matching width: slot 0, AX or AL (R25, R92). -/
def accumulator (w : Width) : Operand := .register w 0

/-- The immediate at width `w`: `(w = word) ? imm : imm[7:0]` (R95). -/
def immValue (w : Width) (imm : Word) : w.Val :=
  match w with
  | .byte => trunc8 imm
  | .word => imm

/-- `BaseIndex(rm)` (R56): BX = 3, BP = 5, SI = 6, DI = 7. -/
def baseIndex (s : State) (rm : BitVec 3) : Word :=
  match rm with
  | 0b000#3 => wordReg s 3 + wordReg s 6
  | 0b001#3 => wordReg s 3 + wordReg s 7
  | 0b010#3 => wordReg s 5 + wordReg s 6
  | 0b011#3 => wordReg s 5 + wordReg s 7
  | 0b100#3 => wordReg s 6
  | 0b101#3 => wordReg s 7
  | 0b110#3 => wordReg s 5
  | 0b111#3 => wordReg s 3

/-- `EA(op)`, modulo 2^16 (R57, R58). -/
def effectiveAddress (s : State) : MemOperand → Word
  | .directMemory address => address
  | .indexedMemory base displacement => baseIndex s base + displacement
  | .indexedMemoryNoDisplacement base => baseIndex s base

/-- A register operand at width `w` (R21, R22). -/
def readReg (s : State) (w : Width) (i : BitVec 3) : w.Val :=
  match w with
  | .byte => byteReg s i
  | .word => wordReg s i

/-- A register operand written at width `w` (R21, R23). -/
def writeReg (s : State) (w : Width) (i : BitVec 3) (v : w.Val) : State :=
  match w with
  | .byte => setByteReg s i v
  | .word => setWordReg s i v

/-- A byte read from memory, extended to width `w` by `MEM_READ_EXT` (R60, D7). -/
def extendRead (ext : MemReadExt) (w : Width) (b : Byte) : w.Val :=
  match w, ext with
  | .byte, _ => b
  | .word, .zero => b.setWidth 16
  | .word, .sign => sext16 b

/-- The byte of a value of width `w` that a memory store writes (R61). -/
def storedByte (w : Width) (v : w.Val) : Byte :=
  match w with
  | .byte => v
  | .word => trunc8 v

/-- `ReadOperand(op, w)` (R60). A register operand's own width is always `w`. -/
def readOperand (s : State) (op : Operand) (w : Width) : w.Val :=
  match op with
  | .register _ i => readReg s w i
  | .memory m => extendRead s.params.memReadExt w (memRead s (effectiveAddress s m))

/-- `WriteOperand(op, w, v)` (R61). -/
def writeOperand (s : State) (op : Operand) (w : Width) (v : w.Val) : State :=
  match op with
  | .register _ i => writeReg s w i v
  | .memory m => memWrite s (effectiveAddress s m) (storedByte w v)

/-- "dst is Register" of the Execute bodies. -/
def Operand.isRegister : Operand → Bool
  | .register _ _ => true
  | .memory _ => false

/-- `new` of R246: the value written to a register, or the memory operand read back after the write. -/
def writtenValue (after : State) (dst : Operand) (w : Width) (v : w.Val) : w.Val :=
  match dst with
  | .register _ _ => v
  | .memory _ => readOperand after dst w

/-- A value of width `w` as a record holds it (R246). -/
def recordValue (w : Width) (v : w.Val) : Value :=
  match w with
  | .byte => .u8 v
  | .word => .u16 v

end Sys2Proof.Machine
end

