-- ==== Sys2Proof/Machine/Cycles.lean ====
section
/-! DEFINITION. The cycle cost of an instruction from the cost tables (R236-R238). -/

namespace Sys2Proof.Machine

/-- `EACost(op)` (R238, Table 60-2): by variant and r/m, not by the displacement's value. -/
def eaCost (table : CycTable) : MemOperand → Nat
  | .directMemory _ => table.eaNoDisp[6]
  | .indexedMemory base _ => table.eaDisp[base.toNat]'base.isLt
  | .indexedMemoryNoDisplacement base => table.eaNoDisp[base.toNat]'base.isLt

/-- The cost of a `RM_REG` form: classes `reg_reg`, `reg_mem` (memory source) and `mem_reg` (R236). -/
def costRmReg (table : CycTable) (row : BaseCosts) (d : Dir) (rmOp : Operand) : Nat :=
  match rmOp, d with
  | .register _ _, _ => row.regReg
  | .memory m, .toReg => row.regMem + eaCost table m
  | .memory m, .toRm => row.memReg + eaCost table m

/-- The cost of an immediate form: classes `reg_imm` and `mem_imm` (R236). -/
def costImm (table : CycTable) (row : BaseCosts) (dst : Operand) : Nat :=
  match dst with
  | .register _ _ => row.regImm
  | .memory m => row.memImm + eaCost table m

end Sys2Proof.Machine
end

