-- ==== Sys2Proof/Machine/Record.lean ====
section
/-! DEFINITION. The decoded-instruction record of an instruction (R84) and its decode record (R245). -/

namespace Sys2Proof.Machine

/-- The canonical spelling of a conditional transfer (R104). -/
def condText : Cond → String
  | .je => "je"
  | .jl => "jl"
  | .jle => "jle"
  | .jb => "jb"
  | .jbe => "jbe"
  | .jp => "jp"
  | .jo => "jo"
  | .js => "js"
  | .jne => "jne"
  | .jnl => "jnl"
  | .jg => "jg"
  | .jnb => "jnb"
  | .ja => "ja"
  | .jnp => "jnp"
  | .jno => "jno"
  | .jns => "jns"
  | .loop => "loop"
  | .loopz => "loopz"
  | .loopnz => "loopnz"
  | .jcxz => "jcxz"

/-- The canonical spelling of a mnemonic (R104). -/
def mnemonicText : Mnemonic → String
  | .mov => "mov"
  | .add => "add"
  | .sub => "sub"
  | .cmp => "cmp"
  | .jcc c => condText c

/-- The record of a `RM_REG` instruction: destination and source, no immediate (R90). -/
def recordRmReg (mn : Mnemonic) (p0 : Pos) (n : Nat) (d : Dir) (w : Width) (rm : Rm) (reg : BitVec 3) : DecodedInstr where
  start := p0
  length := n
  family := .rmReg
  mnemonic := mn
  width := some w
  dst := some (rmRegDst d w rm reg)
  src := some (rmRegSrc d w rm reg)
  imm := none
  rel8 := none

/-- The record of an instruction with an immediate: no source operand (R85, R86, R89, R92). -/
def recordImm (family : Family) (mn : Mnemonic) (p0 : Pos) (n : Nat) (w : Width) (dst : Operand) (imm : Word) :
    DecodedInstr where
  start := p0
  length := n
  family := family
  mnemonic := mn
  width := some w
  dst := some dst
  src := none
  imm := some imm
  rel8 := none

/-- The record of a conditional transfer: "no width, destination or immediate" (R180). -/
def recordJcc (c : Cond) (p0 : Pos) (rel8 : Byte) : DecodedInstr where
  start := p0
  length := 2
  family := .jcc
  mnemonic := .jcc c
  width := none
  dst := none
  src := none
  imm := none
  rel8 := some rel8

/-- The decoded-instruction record of an instruction that starts at `p0` (R84). -/
def decodedInstr (p0 : Pos) (i : Instr) : DecodedInstr :=
  match i with
  | .movRmReg d w rm reg => recordRmReg .mov p0 i.length d w rm reg
  | .addRmReg d w rm reg => recordRmReg .add p0 i.length d w rm reg
  | .subRmReg d w rm reg => recordRmReg .sub p0 i.length d w rm reg
  | .cmpRmReg d w rm reg => recordRmReg .cmp p0 i.length d w rm reg
  | .movImmReg w reg imm => recordImm .moviReg .mov p0 i.length w (.register w reg) imm
  | .movImmRm w rm imm => recordImm .moviRm .mov p0 i.length w (rmOperand w rm) imm
  | .addImmRm _ w rm imm => recordImm .immRm .add p0 i.length w (rmOperand w rm) imm
  | .subImmRm _ w rm imm => recordImm .immRm .sub p0 i.length w (rmOperand w rm) imm
  | .cmpImmRm _ w rm imm => recordImm .immRm .cmp p0 i.length w (rmOperand w rm) imm
  | .addImmAcc w imm => recordImm .accImm .add p0 i.length w (accumulator w) imm
  | .subImmAcc w imm => recordImm .accImm .sub p0 i.length w (accumulator w) imm
  | .cmpImmAcc w imm => recordImm .accImm .cmp p0 i.length w (accumulator w) imm
  | .je rel8 => recordJcc .je p0 rel8
  | .jl rel8 => recordJcc .jl p0 rel8
  | .jle rel8 => recordJcc .jle p0 rel8
  | .jb rel8 => recordJcc .jb p0 rel8
  | .jbe rel8 => recordJcc .jbe p0 rel8
  | .jp rel8 => recordJcc .jp p0 rel8
  | .jo rel8 => recordJcc .jo p0 rel8
  | .js rel8 => recordJcc .js p0 rel8
  | .jne rel8 => recordJcc .jne p0 rel8
  | .jnl rel8 => recordJcc .jnl p0 rel8
  | .jg rel8 => recordJcc .jg p0 rel8
  | .jnb rel8 => recordJcc .jnb p0 rel8
  | .ja rel8 => recordJcc .ja p0 rel8
  | .jnp rel8 => recordJcc .jnp p0 rel8
  | .jno rel8 => recordJcc .jno p0 rel8
  | .jns rel8 => recordJcc .jns p0 rel8
  | .loop rel8 => recordJcc .loop p0 rel8
  | .loopz rel8 => recordJcc .loopz p0 rel8
  | .loopnz rel8 => recordJcc .loopnz p0 rel8
  | .jcxz rel8 => recordJcc .jcxz p0 rel8

/-- The decode record of the instruction at `IP`: the decoded fields and `CODE[p0 .. p0+n-1]` (R245). -/
def decodeRecord (i : Instr) (s : State) : DecodeRecord :=
  let di := decodedInstr s.ip i
  { start := di.start
    length := di.length
    bytes := (fetchBytes s).take di.length
    mnemonic := di.mnemonic
    width := di.width
    dst := di.dst
    src := di.src
    imm := di.imm
    rel8 := di.rel8 }

end Sys2Proof.Machine
end

