-- ==== Sys2Proof/Machine/Commit.lean ====
section
/-! DEFINITION. The commit of a decoded instruction in both modes (R116-R118, R120). -/

namespace Sys2Proof.Machine

/-- What `Execute(di, ipNext)` gives (R117): its register, flag and memory writes, and `(old, new, cost, target)`. -/
structure Executed where
  state : State
  old : Option Value
  new : Option Value
  cost : Nat
  target : Pos

/-- The simulation record of an executed instruction (R245). -/
def simRecord (i : Instr) (s : State) (e : Executed) : SimRecord where
  toDecodeRecord := decodeRecord i s
  oldValue := e.old
  newValue := e.new
  oldFlags := s.flags.view
  newFlags := e.state.flags.view
  cyclesInc := e.cost
  cyclesTotal := s.cyc + BitVec.ofNat 64 e.cost
  oldIp := s.ip
  newIp := e.target

/-- The commit in simulation mode: the staged writes, `CYC`, `IP`, then the record (R118, R120, R235). -/
def commitSim (i : Instr) (s : State) (e : Executed) : State :=
  emit { e.state with cyc := s.cyc + BitVec.ofNat 64 e.cost, ip := e.target } (.simRecord (simRecord i s e))

/-- The commit in decode-only mode: `IP` and the decode record (R116). -/
def commitDecode (i : Instr) (s : State) : State :=
  emit { s with ip := ipAfter s i.length } (.decodeRecord (decodeRecord i s))

/-- A decoded instruction whose `Execute` body does not raise: the body runs in simulation mode only (R116, R117). -/
def complete (i : Instr) (body : Pos → State → Executed) (s : State) : Host.Outcome State Fault Refusal :=
  if s.simulate then .next (commitSim i s (body (ipAfter s i.length) s))
  else .next (commitDecode i s)

end Sys2Proof.Machine
end

