-- ==== Sys2Proof/Machine/Arith.lean ====
section
/-! DEFINITION. The ADD, SUB and CMP family (42_add_sub_cmp.md, R150-R166). -/

namespace Sys2Proof.Machine

/-- `Add(a, b, w)`, modulo 2^w (R151). -/
def aluAdd (w : Width) (a b : w.Val) : w.Val := a + b

/-- `Sub(a, b, w)`, modulo 2^w (R152). -/
def aluSub (w : Width) (a b : w.Val) : w.Val := a - b

/-- The body of `add` and `sub` with result `r`: written to the destination, flags from the full-width result
(R153, R154, R156-R161). `MEM_ARITH` is the switch of R154; its only value is byte-granular. -/
def aluBody (w : Width) (dst : Operand) (r : w.Val) (cost : Nat) (ipNext : Pos) (s : State) : Executed :=
  match s.params.memArith with
  | .byteGranular =>
    let written := writeOperand s dst w r
    { state := setFlags written w r
      old := some (recordValue w (readOperand s dst w))
      new := some (recordValue w (writtenValue written dst w r))
      cost := cost
      target := ipNext }

/-- The body of `cmp` with difference `r`: flags only, and `new = old` (R162-R164, R246). -/
def cmpBody (w : Width) (dst : Operand) (r : w.Val) (cost : Nat) (ipNext : Pos) (s : State) : Executed :=
  match s.params.memArith with
  | .byteGranular =>
    { state := setFlags s w r
      old := some (recordValue w (readOperand s dst w))
      new := some (recordValue w (readOperand s dst w))
      cost := cost
      target := ipNext }

/-! ## ADD -/

/-- `add` register/memory with register (R156). -/
def execAddRmReg (d : Dir) (w : Width) (rm : Rm) (reg : BitVec 3) (s : State) : Host.Outcome State Fault Refusal :=
  let dst := rmRegDst d w rm reg
  let src := rmRegSrc d w rm reg
  complete (.addRmReg d w rm reg)
    (aluBody w dst (aluAdd w (readOperand s dst w) (readOperand s src w))
      (costRmReg s.params.cycTable s.params.cycTable.add.toBaseCosts d (rmOperand w rm))) s

/-- `add` immediate to register/memory (R157). -/
def execAddImmRm (sx : Bool) (w : Width) (rm : Rm) (imm : Word) (s : State) : Host.Outcome State Fault Refusal :=
  let dst := rmOperand w rm
  complete (.addImmRm sx w rm imm)
    (aluBody w dst (aluAdd w (readOperand s dst w) (immValue w imm))
      (costImm s.params.cycTable s.params.cycTable.add.toBaseCosts dst)) s

/-- `add` immediate to accumulator (R158). -/
def execAddImmAcc (w : Width) (imm : Word) (s : State) : Host.Outcome State Fault Refusal :=
  let dst := accumulator w
  complete (.addImmAcc w imm)
    (aluBody w dst (aluAdd w (readOperand s dst w) (immValue w imm)) s.params.cycTable.add.accImm) s

/-! ## SUB -/

/-- `sub` register/memory with register (R159). -/
def execSubRmReg (d : Dir) (w : Width) (rm : Rm) (reg : BitVec 3) (s : State) : Host.Outcome State Fault Refusal :=
  let dst := rmRegDst d w rm reg
  let src := rmRegSrc d w rm reg
  complete (.subRmReg d w rm reg)
    (aluBody w dst (aluSub w (readOperand s dst w) (readOperand s src w))
      (costRmReg s.params.cycTable s.params.cycTable.sub.toBaseCosts d (rmOperand w rm))) s

/-- `sub` immediate to register/memory (R160). -/
def execSubImmRm (sx : Bool) (w : Width) (rm : Rm) (imm : Word) (s : State) : Host.Outcome State Fault Refusal :=
  let dst := rmOperand w rm
  complete (.subImmRm sx w rm imm)
    (aluBody w dst (aluSub w (readOperand s dst w) (immValue w imm))
      (costImm s.params.cycTable s.params.cycTable.sub.toBaseCosts dst)) s

/-- `sub` immediate from accumulator (R161). -/
def execSubImmAcc (w : Width) (imm : Word) (s : State) : Host.Outcome State Fault Refusal :=
  let dst := accumulator w
  complete (.subImmAcc w imm)
    (aluBody w dst (aluSub w (readOperand s dst w) (immValue w imm)) s.params.cycTable.sub.accImm) s

/-! ## CMP -/

/-- `cmp` register/memory with register (R162). -/
def execCmpRmReg (d : Dir) (w : Width) (rm : Rm) (reg : BitVec 3) (s : State) : Host.Outcome State Fault Refusal :=
  let dst := rmRegDst d w rm reg
  let src := rmRegSrc d w rm reg
  complete (.cmpRmReg d w rm reg)
    (cmpBody w dst (aluSub w (readOperand s dst w) (readOperand s src w))
      (costRmReg s.params.cycTable s.params.cycTable.cmp.toBaseCosts d (rmOperand w rm))) s

/-- `cmp` immediate with register/memory (R163). -/
def execCmpImmRm (sx : Bool) (w : Width) (rm : Rm) (imm : Word) (s : State) : Host.Outcome State Fault Refusal :=
  let dst := rmOperand w rm
  complete (.cmpImmRm sx w rm imm)
    (cmpBody w dst (aluSub w (readOperand s dst w) (immValue w imm))
      (costImm s.params.cycTable s.params.cycTable.cmp.toBaseCosts dst)) s

/-- `cmp` immediate with accumulator (R164). -/
def execCmpImmAcc (w : Width) (imm : Word) (s : State) : Host.Outcome State Fault Refusal :=
  let dst := accumulator w
  complete (.cmpImmAcc w imm)
    (cmpBody w dst (aluSub w (readOperand s dst w) (immValue w imm)) s.params.cycTable.cmp.accImm) s

end Sys2Proof.Machine
end

