-- ==== Sys2Proof/Machine/Jcc.lean ====
section
/-! DEFINITION. The conditional transfer family (43_conditional_transfer.md, R180-R207). -/

namespace Sys2Proof.Machine

/-- The body of the 19 mnemonics that only advance: `return (none, none, CYC_JCC_OTHER, ipNext)` (R181, R182). -/
def fallThroughBody (ipNext : Pos) (s : State) : Executed :=
  { state := s, old := none, new := none, cost := s.params.cycJccOther, target := ipNext }

/-- The body of a `jne` that is not taken (R195). -/
def notTakenBody (ipNext : Pos) (s : State) : Executed :=
  { state := s, old := none, new := none, cost := s.params.cycJneNotTaken, target := ipNext }

/-- The body of a taken `jne` to a target that is not below 0 (R184, R195). -/
def takenBody (target : Int) (_ipNext : Pos) (s : State) : Executed :=
  { state := s, old := none, new := none, cost := s.params.cycJneTaken, target := BitVec.ofInt 32 target }

/-- `jne` is taken in simulation mode when `ZF = 0` (R116, R195). -/
def jneTaken (s : State) : Bool := s.simulate && !s.flags.zf

/-- `jne` (R195): a taken jump below position 0 raises `SeekFault` (R183, R224). -/
def execJne (rel8 : Byte) (s : State) : Host.Outcome State Fault Refusal :=
  if jneTaken s then
    if jumpTarget s rel8 < 0 then raise (.seekFault s.ip (jumpTarget s rel8)) s
    else complete (.jne rel8) (takenBody (jumpTarget s rel8)) s
  else complete (.jne rel8) notTakenBody s

/-- `je` (R187). -/
def execJe (rel8 : Byte) (s : State) : Host.Outcome State Fault Refusal :=
  complete (.je rel8) fallThroughBody s

/-- `jl` (R188). -/
def execJl (rel8 : Byte) (s : State) : Host.Outcome State Fault Refusal :=
  complete (.jl rel8) fallThroughBody s

/-- `jle` (R189). -/
def execJle (rel8 : Byte) (s : State) : Host.Outcome State Fault Refusal :=
  complete (.jle rel8) fallThroughBody s

/-- `jb` (R190). -/
def execJb (rel8 : Byte) (s : State) : Host.Outcome State Fault Refusal :=
  complete (.jb rel8) fallThroughBody s

/-- `jbe` (R191). -/
def execJbe (rel8 : Byte) (s : State) : Host.Outcome State Fault Refusal :=
  complete (.jbe rel8) fallThroughBody s

/-- `jp` (R192). -/
def execJp (rel8 : Byte) (s : State) : Host.Outcome State Fault Refusal :=
  complete (.jp rel8) fallThroughBody s

/-- `jo` (R193). -/
def execJo (rel8 : Byte) (s : State) : Host.Outcome State Fault Refusal :=
  complete (.jo rel8) fallThroughBody s

/-- `js` (R194). -/
def execJs (rel8 : Byte) (s : State) : Host.Outcome State Fault Refusal :=
  complete (.js rel8) fallThroughBody s

/-- `jnl` (R196). -/
def execJnl (rel8 : Byte) (s : State) : Host.Outcome State Fault Refusal :=
  complete (.jnl rel8) fallThroughBody s

/-- `jg` (R197). -/
def execJg (rel8 : Byte) (s : State) : Host.Outcome State Fault Refusal :=
  complete (.jg rel8) fallThroughBody s

/-- `jnb` (R198). -/
def execJnb (rel8 : Byte) (s : State) : Host.Outcome State Fault Refusal :=
  complete (.jnb rel8) fallThroughBody s

/-- `ja` (R199). -/
def execJa (rel8 : Byte) (s : State) : Host.Outcome State Fault Refusal :=
  complete (.ja rel8) fallThroughBody s

/-- `jnp` (R200). -/
def execJnp (rel8 : Byte) (s : State) : Host.Outcome State Fault Refusal :=
  complete (.jnp rel8) fallThroughBody s

/-- `jno` (R201). -/
def execJno (rel8 : Byte) (s : State) : Host.Outcome State Fault Refusal :=
  complete (.jno rel8) fallThroughBody s

/-- `jns` (R202). -/
def execJns (rel8 : Byte) (s : State) : Host.Outcome State Fault Refusal :=
  complete (.jns rel8) fallThroughBody s

/-- `loop` (R203). -/
def execLoop (rel8 : Byte) (s : State) : Host.Outcome State Fault Refusal :=
  complete (.loop rel8) fallThroughBody s

/-- `loopz` (R204). -/
def execLoopz (rel8 : Byte) (s : State) : Host.Outcome State Fault Refusal :=
  complete (.loopz rel8) fallThroughBody s

/-- `loopnz` (R205). -/
def execLoopnz (rel8 : Byte) (s : State) : Host.Outcome State Fault Refusal :=
  complete (.loopnz rel8) fallThroughBody s

/-- `jcxz` (R206). -/
def execJcxz (rel8 : Byte) (s : State) : Host.Outcome State Fault Refusal :=
  complete (.jcxz rel8) fallThroughBody s

end Sys2Proof.Machine
end

