-- ==== Sys2Proof/Machine/Mov.lean ====
section
/-! DEFINITION. The MOV family (41_mov.md, R130-R134). -/

namespace Sys2Proof.Machine

/-- The common MOV body: the value goes to the destination; the flags follow it for a register destination only
(R130). -/
def moveBody (w : Width) (dst : Operand) (v : w.Val) (cost : Nat) (ipNext : Pos) (s : State) : Executed :=
  let written := writeOperand s dst w v
  { state := if dst.isRegister then setFlags written w v else written
    old := some (recordValue w (readOperand s dst w))
    new := some (recordValue w (writtenValue written dst w v))
    cost := cost
    target := ipNext }

/-- `mov` register/memory to/from register (R131). -/
def execMovRmReg (d : Dir) (w : Width) (rm : Rm) (reg : BitVec 3) (s : State) : Host.Outcome State Fault Refusal :=
  complete (.movRmReg d w rm reg)
    (moveBody w (rmRegDst d w rm reg) (readOperand s (rmRegSrc d w rm reg) w)
      (costRmReg s.params.cycTable s.params.cycTable.mov d (rmOperand w rm))) s

/-- `mov` immediate to register (R132). -/
def execMovImmReg (w : Width) (reg : BitVec 3) (imm : Word) (s : State) : Host.Outcome State Fault Refusal :=
  complete (.movImmReg w reg imm)
    (moveBody w (.register w reg) (immValue w imm) s.params.cycTable.mov.regImm) s

/-- `mov` immediate to register/memory (R134). -/
def execMovImmRm (w : Width) (rm : Rm) (imm : Word) (s : State) : Host.Outcome State Fault Refusal :=
  complete (.movImmRm w rm imm)
    (moveBody w (rmOperand w rm) (immValue w imm)
      (costImm s.params.cycTable s.params.cycTable.mov (rmOperand w rm))) s

end Sys2Proof.Machine
end

