-- ==== Sys2Proof/Machine/Dispatch.lean ====
section
/-! DEFINITION. The dispatch: one arm for each instruction. -/

namespace Sys2Proof.Machine

def exec (i : Instr) (s : State) : Host.Outcome State Fault Refusal :=
  match i with
  | .movRmReg d w rm reg => Sys2Proof.Machine.execMovRmReg d w rm reg s
  | .addRmReg d w rm reg => Sys2Proof.Machine.execAddRmReg d w rm reg s
  | .subRmReg d w rm reg => Sys2Proof.Machine.execSubRmReg d w rm reg s
  | .cmpRmReg d w rm reg => Sys2Proof.Machine.execCmpRmReg d w rm reg s
  | .movImmReg w reg imm => Sys2Proof.Machine.execMovImmReg w reg imm s
  | .movImmRm w rm imm => Sys2Proof.Machine.execMovImmRm w rm imm s
  | .addImmRm sx w rm imm => Sys2Proof.Machine.execAddImmRm sx w rm imm s
  | .subImmRm sx w rm imm => Sys2Proof.Machine.execSubImmRm sx w rm imm s
  | .cmpImmRm sx w rm imm => Sys2Proof.Machine.execCmpImmRm sx w rm imm s
  | .addImmAcc w imm => Sys2Proof.Machine.execAddImmAcc w imm s
  | .subImmAcc w imm => Sys2Proof.Machine.execSubImmAcc w imm s
  | .cmpImmAcc w imm => Sys2Proof.Machine.execCmpImmAcc w imm s
  | .je rel8 => Sys2Proof.Machine.execJe rel8 s
  | .jl rel8 => Sys2Proof.Machine.execJl rel8 s
  | .jle rel8 => Sys2Proof.Machine.execJle rel8 s
  | .jb rel8 => Sys2Proof.Machine.execJb rel8 s
  | .jbe rel8 => Sys2Proof.Machine.execJbe rel8 s
  | .jp rel8 => Sys2Proof.Machine.execJp rel8 s
  | .jo rel8 => Sys2Proof.Machine.execJo rel8 s
  | .js rel8 => Sys2Proof.Machine.execJs rel8 s
  | .jne rel8 => Sys2Proof.Machine.execJne rel8 s
  | .jnl rel8 => Sys2Proof.Machine.execJnl rel8 s
  | .jg rel8 => Sys2Proof.Machine.execJg rel8 s
  | .jnb rel8 => Sys2Proof.Machine.execJnb rel8 s
  | .ja rel8 => Sys2Proof.Machine.execJa rel8 s
  | .jnp rel8 => Sys2Proof.Machine.execJnp rel8 s
  | .jno rel8 => Sys2Proof.Machine.execJno rel8 s
  | .jns rel8 => Sys2Proof.Machine.execJns rel8 s
  | .loop rel8 => Sys2Proof.Machine.execLoop rel8 s
  | .loopz rel8 => Sys2Proof.Machine.execLoopz rel8 s
  | .loopnz rel8 => Sys2Proof.Machine.execLoopnz rel8 s
  | .jcxz rel8 => Sys2Proof.Machine.execJcxz rel8 s

end Sys2Proof.Machine
end

