-- ==== Sys2Proof/Machine/Cycle.lean ====
section
/-! DEFINITION. The instruction cycle (40_instruction_cycle.md, R110-R120): what a step does with what it decodes. -/

namespace Sys2Proof.Machine

/-- What a step of the running core does with the outcome of its decode (R111-R117, R120, R228). -/
def runDecoded (d : Decoded) (s : State) : Host.Outcome State Fault Refusal :=
  match d with
  | .endOfStream => .next (endRun s)
  | .unrecognised b0 => .next (skip b0 s)
  | .truncated => raise (.truncatedStream s.ip) s
  | .unsupported => raise (.unsupportedEncoding s.ip) s
  | .instr i _ => exec i s

/-- `Step()` (R120): a step exists only while `STATUS = RUNNING` (R110; log entry 8). -/
def instructionCycle (s : State) : Host.Outcome State Fault Refusal :=
  match s.status with
  | .running => runDecoded (decode (fetchBytes s)) s
  | .cleanEnd | .truncatedStream _ | .unsupportedEncoding _ | .seekFault _ _ => .fault .notRunning

end Sys2Proof.Machine
end

