-- ==== Sys2Proof/Machine/Step.lean ====
section
/-! DEFINITION. One step of the core (R120), and the host's way to place an instruction before it. -/

namespace Sys2Proof.Machine

/-- One step: the instruction cycle (R110-R120). -/
def step (s : State) : Host.Outcome State Fault Refusal := instructionCycle s

/-- The state with a table word's instruction placed in the code stream at `IP`, and a running core
(log entries 6 and 7). -/
def State.withFetchWord (s : State) (nbits w : Nat) : State :=
  { s with code := placeBytes s.code s.ip.toNat (tableWordBytes nbits w), status := .running }

end Sys2Proof.Machine
end

