-- ==== Sys2Proof/Safety.lean ====
section
/-! DEFINITION. The words the claims are stated in: what an instruction leaves unchanged, what it wrote, and the
invariants of a run. -/

namespace Sys2Proof.Machine

/-! ## Frames -/

/-- Every byte of data memory reads as before. -/
def SameMemory (s t : State) : Prop := ∀ a : Word, memRead t a = memRead s a

/-- Every byte of data memory outside address `a` reads as before. -/
def SameMemoryOutside (a : Word) (s t : State) : Prop := ∀ b : Word, b ≠ a → memRead t b = memRead s b

/-- Every register slot is unchanged. -/
def SameRegs (s t : State) : Prop := ∀ i : BitVec 3, wordReg t i = wordReg s i

/-- Every register is unchanged but register `i` of width `w`. For a byte register: every other byte register, the
other half of its own slot among them, and the slots 4-7, which have no byte view (R23). -/
def SameRegsBut (w : Width) (i : BitVec 3) (s t : State) : Prop :=
  match w with
  | .word => ∀ j : BitVec 3, j ≠ i → wordReg t j = wordReg s j
  | .byte => (∀ j : BitVec 3, j ≠ i → byteReg t j = byteReg s j) ∧
      ∀ j : BitVec 3, 4 ≤ j.toNat → wordReg t j = wordReg s j

/-- The run inputs, constant for a run (R126). -/
def SameInputs (s t : State) : Prop := t.code = s.code ∧ t.simulate = s.simulate ∧ t.params = s.params

/-- The run inputs, `STATUS` and `UNREC` are unchanged. -/
def SameControl (s t : State) : Prop := SameInputs s t ∧ t.status = s.status ∧ t.unrec = s.unrec

/-! ## Effects -/

/-- The destination holds `v` and nothing else in the registers and the memory changed. A memory destination is the
byte at the effective address, computed from the registers before the step, and takes the low 8 bits (R61). -/
def Wrote (w : Width) (dst : Operand) (v : w.Val) (s t : State) : Prop :=
  match dst with
  | .register _ i => readReg t w i = v ∧ SameRegsBut w i s t ∧ SameMemory s t
  | .memory m => memRead t (effectiveAddress s m) = BitVec.setWidth 8 v ∧
      SameMemoryOutside (effectiveAddress s m) s t ∧ SameRegs s t

/-- `SF` of a result read as a signed integer (R27, R28). -/
def SignOf (basis : ByteFlagBasis) (w : Width) (r : w.Val) : Prop :=
  match w, basis with
  | .byte, .zext16 => False
  | .byte, .byteResult => r.toInt < 0
  | .word, _ => r.toInt < 0

/-- Both flags are those of the result `r` (R27, R28). -/
def FlagsOfResult (w : Width) (r : w.Val) (s t : State) : Prop :=
  (t.flags.zf = true ↔ r = 0) ∧ (t.flags.sf = true ↔ SignOf s.params.byteFlagBasis w r)

/-- `IP` moved past the instruction, `CYC` took the cost, and the inputs, `STATUS` and `UNREC` are unchanged. -/
def Advanced (i : Instr) (cost : Nat) (s t : State) : Prop :=
  t.ip = s.ip + BitVec.ofNat 32 i.length ∧ t.cyc = s.cyc + BitVec.ofNat 64 cost ∧ SameControl s t

/-- A halt: `STATUS` is the halt's, and nothing else changed (R221). -/
def Halted (halt : Status) (s t : State) : Prop := t = { s with status := halt }

/-! ## Costs, as Tables 60-1 and 60-2 give them -/

/-- The cost of an immediate form (R236). -/
def ImmCost (s : State) (row : BaseCosts) : Rm → Nat
  | .register _ => row.regImm
  | .directMemory _ => row.memImm + s.params.cycTable.eaNoDisp[6]
  | .indexedMemory _ base _ => row.memImm + s.params.cycTable.eaDisp[base.toNat]'base.isLt
  | .indexedMemoryNoDisplacement base => row.memImm + s.params.cycTable.eaNoDisp[base.toNat]'base.isLt

/-- The cost of a `RM_REG` form (R236). -/
def RmRegCost (s : State) (row : BaseCosts) (d : Dir) : Rm → Nat
  | .register _ => row.regReg
  | .directMemory _ => (if d = .toReg then row.regMem else row.memReg) + s.params.cycTable.eaNoDisp[6]
  | .indexedMemory _ base _ =>
    (if d = .toReg then row.regMem else row.memReg) + s.params.cycTable.eaDisp[base.toNat]'base.isLt
  | .indexedMemoryNoDisplacement base =>
    (if d = .toReg then row.regMem else row.memReg) + s.params.cycTable.eaNoDisp[base.toNat]'base.isLt

/-! ## Conditional transfers and recognised bytes -/

/-- The 19 conditional transfers other than `jne`, with displacement `rel8` (R181). -/
def otherTransfers (rel8 : Byte) : List Instr :=
  [.je rel8, .jl rel8, .jle rel8, .jb rel8, .jbe rel8, .jp rel8, .jo rel8, .js rel8, .jnl rel8, .jg rel8] ++
  [.jnb rel8, .ja rel8, .jnp rel8, .jno rel8, .jns rel8, .loop rel8, .loopz rel8, .loopnz rel8, .jcxz rel8]

/-- A leading byte in a recognised range of the opcode map (R96). -/
def recognisedByte (b : Byte) : Bool :=
  b.toNat ≤ 0x05 || (0x28 ≤ b.toNat && b.toNat ≤ 0x2D) || (0x38 ≤ b.toNat && b.toNat ≤ 0x3D) ||
  (0x70 ≤ b.toNat && b.toNat ≤ 0x83) || (0x88 ≤ b.toNat && b.toNat ≤ 0x8B) ||
  (0xB0 ≤ b.toNat && b.toNat ≤ 0xBF) || (0xC6 ≤ b.toNat && b.toNat ≤ 0xC7) ||
  (0xE0 ≤ b.toNat && b.toNat ≤ 0xE3)

/-! ## The bytes that decoded fields come from -/

/-- The width that the one-bit field at `b[n]` stands for (R73). -/
def widthAt (b : Byte) (n : Nat) : Width := if b.extractLsb' n 1 = 1#1 then .word else .byte

/-- `imm` is what stands at the front of `bytes`, before `rest`: a sign-extended byte, or two bytes with the low one
first (R71, R95). -/
def ImmediateAt (twoBytes : Bool) (bytes rest : List Byte) (imm : Word) : Prop :=
  match twoBytes with
  | false => ∃ v : Byte, bytes = v :: rest ∧ imm = v.signExtend 16
  | true => ∃ lo hi : Byte, bytes = lo :: hi :: rest ∧ imm = (hi ++ lo : BitVec 16)

/-- `op` is the operand that the mod and r/m fields of `modrm` select at width `w`, with the displacement or address at
the front of `bytes`, before `rest` (R75-R78). -/
def OperandAt (w : Width) (modrm : Byte) (bytes rest : List Byte) (op : Operand) : Prop :=
  let rm : BitVec 3 := modrm.extractLsb' 0 3
  (modrm.extractLsb' 6 2 = 0b11#2 ∧ bytes = rest ∧ op = .register w rm) ∨
  (modrm.extractLsb' 6 2 = 0b00#2 ∧ rm = 0b110#3 ∧
    ∃ lo hi : Byte, bytes = lo :: hi :: rest ∧ op = .memory (.directMemory (hi ++ lo : BitVec 16))) ∨
  (modrm.extractLsb' 6 2 = 0b00#2 ∧ rm ≠ 0b110#3 ∧ bytes = rest ∧ op = .memory (.indexedMemoryNoDisplacement rm)) ∨
  (modrm.extractLsb' 6 2 = 0b01#2 ∧
    ∃ d : Byte, bytes = d :: rest ∧ op = .memory (.indexedMemory rm (d.signExtend 16))) ∨
  (modrm.extractLsb' 6 2 = 0b10#2 ∧
    ∃ lo hi : Byte, bytes = lo :: hi :: rest ∧ op = .memory (.indexedMemory rm (hi ++ lo : BitVec 16)))

/-- Table 30-3, row by row: the opcode byte of each conditional transfer (R94). -/
def transferBytes : List (Byte × Cond) :=
  [(0x74, .je), (0x7C, .jl), (0x7E, .jle), (0x72, .jb), (0x76, .jbe), (0x7A, .jp), (0x70, .jo), (0x78, .js),
    (0x75, .jne), (0x7D, .jnl)] ++
  [(0x7F, .jg), (0x73, .jnb), (0x77, .ja), (0x7B, .jnp), (0x71, .jno), (0x79, .jns), (0xE2, .loop), (0xE1, .loopz),
    (0xE0, .loopnz), (0xE3, .jcxz)]

/-! ## Invariants of a run -/

/-- The byte source fits the stream position register: `L + 128 <= 2^IP_WIDTH` (R10, R30). -/
def State.CodeFits (s : State) : Prop := s.code.length + 128 ≤ 2 ^ 32

/-- The machine invariant: data memory is in canonical form (log entry 18), the byte source fits (R30), and `IP` is at most 127
bytes past the end of the stream, the farthest a jump at its end can reach (R184). -/
structure State.Inv (s : State) : Prop where
  memCanonical : s.mem.wf = true
  codeFits : s.CodeFits
  ipInReach : s.ip.toNat ≤ s.code.length + 127

/-- The cost a trace item adds to `CYC` (R235, R240). -/
def TraceItem.cost : TraceItem → Nat
  | .simRecord r => r.cyclesInc
  | .decodeRecord _ => 0
  | .unrecognised _ _ _ => 0
  | .finalReport _ _ _ => 0

/-- The count a trace item adds to `UNREC` (R34, R247). -/
def TraceItem.skips : TraceItem → Nat
  | .unrecognised _ _ _ => 1
  | .simRecord _ => 0
  | .decodeRecord _ => 0
  | .finalReport _ _ _ => 0

/-- The counters agree with the trace: `CYC` is the sum of the record costs (R240), `UNREC` the number of
unrecognised-byte events (R34), both modulo their widths. -/
structure State.CountersMatchTrace (s : State) : Prop where
  cycles : s.cyc = BitVec.ofNat 64 (s.trace.map TraceItem.cost).sum
  skipped : s.unrec = BitVec.ofNat 32 (s.trace.map TraceItem.skips).sum

end Sys2Proof.Machine
end

