-- ==== Sys2Proof/Certificates/Slice0/Obligations.lean ====
section
/-! DEFINITION. The statements for the provers. Statements about effects take the simulation mode and, where a byte is
read back from memory after a store, the canonical form of the memory, which `StepKeepsMachineInvariant` keeps. -/

open Sys2Proof Sys2Proof.Machine

/-! ## Registers, memory, operands, flags -/

/-- R22, R23: which half of which slot a byte register is, and that a byte write leaves the other half and the slots
4-7 alone. -/
def Obligations.ByteRegistersAliasSlotHalves : Prop :=
  ∀ (s : State) (i : BitVec 3) (v : Byte),
    (i.toNat < 4 →
      readReg s .byte i = (wordReg s i).extractLsb' 0 8 ∧
      wordReg (writeReg s .byte i v) i = ((wordReg s i).extractLsb' 8 8 ++ v : BitVec 16) ∧
      ∀ j, j ≠ i → wordReg (writeReg s .byte i v) j = wordReg s j) ∧
    (4 ≤ i.toNat →
      readReg s .byte i = (wordReg s (i - 4)).extractLsb' 8 8 ∧
      wordReg (writeReg s .byte i v) (i - 4) = (v ++ (wordReg s (i - 4)).extractLsb' 0 8 : BitVec 16) ∧
      ∀ j, j ≠ i - 4 → wordReg (writeReg s .byte i v) j = wordReg s j)

/-- R21: a word-width register operand is slot `i`, and writing it writes that slot and no other. -/
def Obligations.WordRegisterWriteIsLocal : Prop :=
  ∀ (s : State) (i : BitVec 3) (v : Word),
    readOperand s (.register .word i) .word = wordReg s i ∧
    wordReg (writeOperand s (.register .word i) .word v) i = v ∧
    ∀ j, j ≠ i → wordReg (writeOperand s (.register .word i) .word v) j = wordReg s j

/-- R52: a store sets its byte and changes no other byte, and nothing but the memory. -/
def Obligations.MemoryWriteChangesOneByte : Prop :=
  ∀ (s : State) (a : Word) (v : Byte), s.mem.wf = true →
    memRead (memWrite s a v) a = v ∧
    (∀ b, b ≠ a → memRead (memWrite s a v) b = memRead s b) ∧
    memWrite s a v = { s with mem := (memWrite s a v).mem }

/-- The canonical form of the data memory (the model's choice of representation, log entry 18): two memories in
canonical form that read alike at every address are equal. -/
def Obligations.CanonicalMemoriesThatReadAlikeAreEqual : Prop :=
  ∀ m m' : Memory, m.wf = true → m'.wf = true → (∀ a, a < 65536 → m.get a = m'.get a) → m = m'

/-- R61: what `WriteOperand` stores, for each of its four forms; a word store does not touch `M[EA+1]`. -/
def Obligations.WriteOperandStoresByForm : Prop :=
  ∀ (s : State) (m : MemOperand) (i : BitVec 3) (v8 : Byte) (v16 : Word), s.mem.wf = true →
    wordReg (writeOperand s (.register .word i) .word v16) i = v16 ∧
    byteReg (writeOperand s (.register .byte i) .byte v8) i = v8 ∧
    memRead (writeOperand s (.memory m) .byte v8) (effectiveAddress s m) = v8 ∧
    memRead (writeOperand s (.memory m) .word v16) (effectiveAddress s m) = v16.extractLsb' 0 8 ∧
    memRead (writeOperand s (.memory m) .word v16) (effectiveAddress s m + 1) = memRead s (effectiveAddress s m + 1)

/-- A memory operand reads one byte, extended to a word by `MEM_READ_EXT` (20_memory.md R60: the spec's own decision
D7, log entry 3). The statement holds for both values of the parameter. -/
def Obligations.MemoryReadExtendsOneByte : Prop :=
  ∀ (s : State) (m : MemOperand),
    readOperand s (.memory m) .byte = memRead s (effectiveAddress s m) ∧
    (s.params.memReadExt = .zero →
      BitVec.toNat (readOperand s (.memory m) .word) = (memRead s (effectiveAddress s m)).toNat) ∧
    (s.params.memReadExt = .sign →
      BitVec.toInt (readOperand s (.memory m) .word) = (memRead s (effectiveAddress s m)).toInt)

/-- The effective address is the sum of one or two registers and the displacement, modulo 2^16 (20_memory.md R57,
R58; the rows of the table are the spec's general knowledge, R56, log entry 17). -/
def Obligations.EffectiveAddressIsWrappedSum : Prop :=
  ∀ (s : State) (d : Word),
    effectiveAddress s (.directMemory d) = d ∧
    (effectiveAddress s (.indexedMemory 0 d)).toNat = ((wordReg s 3).toNat + (wordReg s 6).toNat + d.toNat) % 65536 ∧
    (effectiveAddress s (.indexedMemory 1 d)).toNat = ((wordReg s 3).toNat + (wordReg s 7).toNat + d.toNat) % 65536 ∧
    (effectiveAddress s (.indexedMemory 2 d)).toNat = ((wordReg s 5).toNat + (wordReg s 6).toNat + d.toNat) % 65536 ∧
    (effectiveAddress s (.indexedMemory 3 d)).toNat = ((wordReg s 5).toNat + (wordReg s 7).toNat + d.toNat) % 65536 ∧
    (effectiveAddress s (.indexedMemory 4 d)).toNat = ((wordReg s 6).toNat + d.toNat) % 65536 ∧
    (effectiveAddress s (.indexedMemory 5 d)).toNat = ((wordReg s 7).toNat + d.toNat) % 65536 ∧
    (effectiveAddress s (.indexedMemory 6 d)).toNat = ((wordReg s 5).toNat + d.toNat) % 65536 ∧
    (effectiveAddress s (.indexedMemory 7 d)).toNat = ((wordReg s 3).toNat + d.toNat) % 65536 ∧
    ∀ base, effectiveAddress s (.indexedMemoryNoDisplacement base) = effectiveAddress s (.indexedMemory base 0)

/-- R27: the flags of a word result, read as a signed integer. -/
def Obligations.WordResultFlags : Prop :=
  ∀ (s : State) (r : Word),
    ((setFlags s .word r).flags.zf = true ↔ r.toInt = 0) ∧ ((setFlags s .word r).flags.sf = true ↔ r.toInt < 0)

/-- R41: the flag string of each of the four flag states. -/
def Obligations.FlagStringOfEachFlagState : Prop :=
  Flags.text ⟨false, false⟩ = "" ∧ Flags.text ⟨true, false⟩ = "Z" ∧ Flags.text ⟨false, true⟩ = "S" ∧
  Flags.text ⟨true, true⟩ = "ZS"

/-- The default cells of Table 60-2 (60_exceptions.md R238: the spec's general knowledge and decision D13, log
entry 3). -/
def Obligations.DefaultAddressCosts : Prop :=
  (∀ a, eaCost defaultCycTable (.directMemory a) = 6) ∧
  ([0, 1, 2, 3, 4, 5, 7].map fun b => eaCost defaultCycTable (.indexedMemoryNoDisplacement b)) = [7, 8, 8, 7, 5, 5, 5] ∧
  ∀ d, ([0, 1, 2, 3, 4, 5, 6, 7].map fun b => eaCost defaultCycTable (.indexedMemory b d)) = [11, 12, 12, 11, 9, 9, 9, 9]

/-! ## Encoding and decoding -/

/-- Eight instruction words written from the encodings decode to the instructions they stand for, and three other
words are told apart (95_test_vectors.md S2, S3, S4, V10, V16, V26, V39, V41, V54, V60; some of the byte values are the
spec's general knowledge, log entry 17). -/
def Obligations.KnownWordsDecode : Prop :=
  decode [0xB8, 0x05, 0x00] = .instr (.movImmReg .word 0 5) [] ∧
  decode [0x01, 0xC1] = .instr (.addRmReg .toRm .word (.register 1) 0) [] ∧
  decode [0x75, 0xFE] = .instr (.jne 0xFE) [] ∧
  decode [0xC6, 0x06, 0xE8, 0x03, 0x7F] = .instr (.movImmRm .byte (.directMemory 1000) 0x7F) [] ∧
  decode [0x83, 0xC1, 0xFF] = .instr (.addImmRm true .word (.register 1) 0xFFFF) [] ∧
  decode [0x8B, 0x47, 0xFE] = .instr (.movRmReg .toReg .word (.indexedMemory .d8 7 0xFFFE) 0) [] ∧
  decode [0x2C, 0x01] = .instr (.subImmAcc .byte 1) [] ∧
  decode [0x39, 0xD8] = .instr (.cmpRmReg .toRm .word (.register 0) 3) [] ∧
  decode [0x0F] = .unrecognised 0x0F ∧
  decode [0x83, 0xC8, 0x01] = .unsupported ∧
  decode [0xB8, 0x05] = .truncated

/-- No byte matches more than one row of the dispatch table, and the bytes that match one are the listed sets
(30_encoding.md R82; the sets are the spec's own derivation, and some bytes its general knowledge, log entry 17). -/
def Obligations.DispatchRowsAreExclusive : Prop :=
  ∀ b : Byte,
    (dispatchTable.filter (·.matchesByte b)).length ≤ 1 ∧
    ((dispatchTable.filter (·.matchesByte b)).length = 1 ↔
      b.toNat ∈ [0x00, 0x01, 0x02, 0x03, 0x04, 0x05, 0x28, 0x29, 0x2A, 0x2B, 0x2C, 0x2D, 0x38, 0x39, 0x3A, 0x3B] ++
        [0x3C, 0x3D, 0x80, 0x81, 0x82, 0x83, 0x88, 0x89, 0x8A, 0x8B, 0xC6, 0xC7, 0xE0, 0xE1, 0xE2, 0xE3] ∨
      (0x70 ≤ b.toNat ∧ b.toNat ≤ 0x7F) ∨ (0xB0 ≤ b.toNat ∧ b.toNat ≤ 0xBF))

/-- R75-R78: the operand each mod field selects and the bytes it takes. -/
def Obligations.ModFieldSelectsOperand : Prop :=
  ∀ (rm : BitVec 3) (b0 b1 : Byte) (rest : List Byte),
    decodeOperand 0b11#2 rm rest = some (.register rm, rest) ∧
    decodeOperand 0b00#2 0b110#3 (b0 :: b1 :: rest) = some (.directMemory (b1 ++ b0 : BitVec 16), rest) ∧
    (rm ≠ 0b110#3 → decodeOperand 0b00#2 rm rest = some (.indexedMemoryNoDisplacement rm, rest)) ∧
    decodeOperand 0b01#2 rm (b0 :: rest) = some (.indexedMemory .d8 rm (b0.signExtend 16), rest) ∧
    decodeOperand 0b10#2 rm (b0 :: b1 :: rest) = some (.indexedMemory .d16 rm (b1 ++ b0 : BitVec 16), rest)

/-- Decoding the encoding of a well-formed instruction gives it back, whatever bytes follow. -/
def Obligations.DecodeInvertsEncode : Prop :=
  ∀ (i : Instr) (rest : List Byte), i.wf = true → decode (encode i ++ rest) = .instr i rest

/-- What the decoder reads is well formed, is the encoding it read, and has the length of R102, 2 to 6 bytes. -/
def Obligations.EncodeInvertsDecode : Prop :=
  ∀ (bytes rest : List Byte) (i : Instr), decode bytes = .instr i rest →
    i.wf = true ∧ bytes = encode i ++ rest ∧ i.length + rest.length = bytes.length ∧ 2 ≤ i.length ∧ i.length ≤ 6

/-- A step whose stream ends inside an instruction, anywhere after its leading byte, halts with `TRUNCATED_STREAM`
and changes nothing else (60_exceptions.md R222; "commits nothing" is the spec's decision D18, log entry 8). -/
def Obligations.TruncatedInstructionHalts : Prop :=
  ∀ (i : Instr) (k : Nat) (s : State), i.wf = true → 1 ≤ k → k < i.length → s.status = .running →
    fetchBytes s = (encode i).take k →
    ∃ t, step s = .next t ∧ Halted (.truncatedStream s.ip) s t

/-- A recognised byte with a secondary field outside the subset halts with `UNSUPPORTED_ENCODING`, whatever bytes
follow the ModRM byte and even if none do (the spec's decisions D11 and D12, log entry 8). -/
def Obligations.UnsupportedSecondaryFieldHalts : Prop :=
  ∀ (b0 modrm : Byte) (rest : List Byte) (s : State), s.status = .running →
    fetchBytes s = b0 :: modrm :: rest →
    ((b0 = 0x80 ∨ b0 = 0x81 ∨ b0 = 0x82 ∨ b0 = 0x83) ∧ modrm.extractLsb' 3 3 ≠ 0b000#3 ∧
        modrm.extractLsb' 3 3 ≠ 0b101#3 ∧ modrm.extractLsb' 3 3 ≠ 0b111#3) ∨
      ((b0 = 0xC6 ∨ b0 = 0xC7) ∧ modrm.extractLsb' 3 3 ≠ 0b000#3) →
    ∃ t, step s = .next t ∧ Halted (.unsupportedEncoding s.ip) s t

/-- A leading byte outside the recognised ranges of the opcode map is skipped alone, in either mode (30_encoding.md
R83, R96; the count, the event and the zero cost are the spec's decisions D6 and D16). -/
def Obligations.UnrecognisedByteIsSkippedAlone : Prop :=
  ∀ (b0 : Byte) (rest : List Byte) (s : State), s.status = .running → fetchBytes s = b0 :: rest →
    recognisedByte b0 = false →
    ∃ t, step s = .next t ∧ t.ip = s.ip + 1 ∧ t.unrec = s.unrec + 1 ∧
      t.trace = s.trace ++ [.unrecognised s.ip b0 (s.unrec + 1)] ∧
      t.regs = s.regs ∧ t.flags = s.flags ∧ t.mem = s.mem ∧ t.cyc = s.cyc ∧ t.status = s.status ∧ SameInputs s t

/-! ## The instruction cycle -/

/-- A step of the running core on bytes that decode runs the decoded instruction (40_instruction_cycle.md R113-R117). -/
def Obligations.StepRunsDecodedInstruction : Prop :=
  ∀ (s : State) (i : Instr) (rest : List Byte), s.status = .running → decode (fetchBytes s) = .instr i rest →
    step s = exec i s

/-- A well-formed instruction that stands in the code stream at `IP` is the one the step runs; in either mode, a
completed one leaves `IP` right after its bytes unless it is a `jne`. -/
def Obligations.StepRunsEncodedInstructionAtIp : Prop :=
  ∀ (s : State) (i : Instr) (before after : List Byte), s.status = .running → i.wf = true →
    s.code = before ++ encode i ++ after → s.ip.toNat = before.length → s.CodeFits →
    step s = exec i s ∧
    ((∀ rel8, i ≠ .jne rel8) → ∃ t, step s = .next t ∧ t.ip.toNat = before.length + (encode i).length)

/-- R111: the clean end. -/
def Obligations.StreamEndIsCleanEnd : Prop :=
  ∀ s : State, s.status = .running → s.code.length ≤ s.ip.toNat →
    (s.simulate = true →
      step s = .next { s with status := .cleanEnd, trace := s.trace ++ [.finalReport s.regs s.ip s.flags.view] }) ∧
    (s.simulate = false → step s = .next { s with status := .cleanEnd })

/-- R227: the core takes no step once `STATUS` is not `RUNNING`, and a reset sets it back. -/
def Obligations.NoStepOnceEnded : Prop :=
  (∀ s t : State, s.status ≠ .running → step s ≠ .next t) ∧
  ∀ l : Launch, (State.launch l).status = .running

/-- The model's form of the ended run (log entry 8): a step of a core that is not running is the fault `notRunning`. -/
def Obligations.StepOfEndedCoreFaults : Prop :=
  ∀ s : State, s.status ≠ .running → step s = .fault .notRunning

/-- A halt is precise: a step that ends with a fatal `STATUS` changed nothing else, and the status output reads 2, 3
or 4 (60_exceptions.md R220, R221, R230; 10_state.md R36: the spec's decisions D4, D11, D12, D18). -/
def Obligations.FatalHaltCommitsNothing : Prop :=
  ∀ s t : State, step s = .next t → t.status ≠ .running → t.status ≠ .cleanEnd →
    Halted t.status s t ∧
    ((statusCode t.status = 2 ∧ decode (fetchBytes s) = .truncated) ∨
      (statusCode t.status = 3 ∧ decode (fetchBytes s) = .unsupported) ∨
      (statusCode t.status = 4 ∧ ∃ rel8 rest, decode (fetchBytes s) = .instr (.jne rel8) rest))

/-- In decode-only mode every instruction, `jne` among them, moves `IP` past itself, emits its decode record with its
position, bytes and decoded fields, and changes nothing else (40_instruction_cycle.md R116: the spec's decision D17;
60_exceptions.md R245). `DecodedFieldsOfEachFamily` says what the decoded fields are. -/
def Obligations.DecodeOnlyModeOnlyAdvances : Prop :=
  ∀ (i : Instr) (s : State), s.simulate = false →
    ∃ r : DecodeRecord, exec i s = .next { s with
        ip := s.ip + BitVec.ofNat 32 i.length, trace := s.trace ++ [.decodeRecord r] } ∧
      r.start = s.ip ∧ r.length = i.length ∧ r.bytes = (s.code.drop s.ip.toNat).take i.length ∧
      r.mnemonic = (decodedInstr s.ip i).mnemonic ∧ r.width = (decodedInstr s.ip i).width ∧
      r.dst = (decodedInstr s.ip i).dst ∧ r.src = (decodedInstr s.ip i).src ∧
      r.imm = (decodedInstr s.ip i).imm ∧ r.rel8 = (decodedInstr s.ip i).rel8

/-- In decode-only mode each step ends the run or raises `IP` strictly (40_instruction_cycle.md R124, which the spec
derives), in a stream that fits `IP`. -/
def Obligations.DecodeOnlyStepsMakeProgress : Prop :=
  ∀ s t : State, s.simulate = false → s.CodeFits → step s = .next t →
    t.status ≠ .running ∨ s.ip.toNat < t.ip.toNat

/-- No step changes the byte source, the mode or a parameter: no store reaches the code stream (20_memory.md R50, R67)
and the inputs are fixed for the run (92_eei_decisions.md D2). -/
def Obligations.RunInputsNeverChange : Prop :=
  ∀ s t : State, step s = .next t → SameInputs s t

/-- R31: the values `IP` takes at the commit of a step that goes on. -/
def Obligations.IpAdvancesAsTheStepDecodes : Prop :=
  ∀ s t : State, s.CodeFits → step s = .next t → t.status = .running →
    match decode (fetchBytes s) with
    | .unrecognised _ => t.ip.toNat = s.ip.toNat + 1
    | .instr (.jne rel8) _ =>
      (s.simulate = true ∧ s.flags.zf = false → (t.ip.toNat : Int) = s.ip.toNat + 2 + rel8.toInt) ∧
      (¬ (s.simulate = true ∧ s.flags.zf = false) → t.ip.toNat = s.ip.toNat + 2)
    | .instr i _ => t.ip.toNat = s.ip.toNat + i.length
    | .endOfStream => False
    | .truncated => False
    | .unsupported => False

/-- The machine invariant is kept by every step from every state that has it: canonical memory (the form is the
model's choice, log entry 18), a stream that fits `IP`, and `IP` within a jump of its end (10_state.md R30;
43_conditional_transfer.md R184). -/
def Obligations.StepKeepsMachineInvariant : Prop :=
  ∀ s t : State, s.Inv → step s = .next t → t.Inv

/-- A run starts in both invariants, for every launch whose stream fits `IP` (10_state.md R30), and State.reset is
such a start. That the start is `IP`, `CYC` and `UNREC` 0 is the spec's decisions D3 and D6 (log entry 4), and the
canonical memory form is the model's choice (log entry 18). -/
def Obligations.LaunchMeetsInvariants : Prop :=
  (∀ l : Launch, l.code.length + 128 ≤ 2 ^ 32 → (State.launch l).Inv ∧ (State.launch l).CountersMatchTrace) ∧
  State.reset.Inv ∧ State.reset.CountersMatchTrace

/-- `CYC` stays the sum of the costs of the records emitted, and `UNREC` the number of unrecognised-byte events,
modulo their widths (60_exceptions.md R240, 10_state.md R34). -/
def Obligations.StepKeepsCountersEqualToTrace : Prop :=
  ∀ s t : State, s.CountersMatchTrace → step s = .next t → t.CountersMatchTrace

/-- A step appends at most one record to the trace, `CYC` grows by that record's cost, and it does not decrease unless
it wraps (60_exceptions.md R235, R240; 00_scope.md R8). -/
def Obligations.TraceGrowsByAtMostOneRecord : Prop :=
  ∀ s t : State, step s = .next t →
    ∃ new : List TraceItem, t.trace = s.trace ++ new ∧ new.length ≤ 1 ∧
      t.cyc = s.cyc + BitVec.ofNat 64 (new.map TraceItem.cost).sum ∧
      (s.cyc.toNat + (new.map TraceItem.cost).sum < 2 ^ 64 → s.cyc.toNat ≤ t.cyc.toNat)

/-! ## Reset -/

/-- R37: data memory is all zero at reset, whatever the launch. -/
def Obligations.MemoryIsZeroAtReset : Prop :=
  ∀ (l : Launch) (a : Word), memRead (State.launch l) a = 0

/-- The other reset values (70_reset_and_hazards.md R260, R261: the spec's decision D3, log entry 4), for every launch;
State.reset has zero registers. -/
def Obligations.LaunchStateValues : Prop :=
  (∀ l : Launch, (State.launch l).regs = l.resetRegs ∧ (State.launch l).flags = ⟨false, false⟩ ∧
    (State.launch l).ip = 0 ∧ (State.launch l).cyc = 0 ∧ (State.launch l).unrec = 0 ∧
    (State.launch l).status = .running ∧ (State.launch l).simulate = l.simulate ∧ (State.launch l).code = l.code ∧
    (State.launch l).params = l.params ∧ (State.launch l).trace = []) ∧
  ∀ i : BitVec 3, wordReg State.reset i = 0

/-- A program of length 0 ends on its first step, with all state but `STATUS` and the trace as at reset, in either
mode, and in simulation mode a report of the reset registers at position 0 with an empty flag string
(70_reset_and_hazards.md R267, which the spec derives; the zeros of reset are its decisions D3 and D6, log entry 4). -/
def Obligations.EmptyProgramEndsAtOnce : Prop :=
  ∀ l : Launch, l.code = [] → ∃ t, step (State.launch l) = .next t ∧ t.status = .cleanEnd ∧
    t = { State.launch l with status := t.status, trace := t.trace } ∧
    t.regs = l.resetRegs ∧ t.flags = ⟨false, false⟩ ∧ t.ip = 0 ∧ t.cyc = 0 ∧ t.unrec = 0 ∧
    (∀ a, memRead t a = 0) ∧ SameInputs (State.launch l) t ∧
    t.trace = if l.simulate then [.finalReport l.resetRegs 0 ⟨false, false, ""⟩] else []

/-! ## The MOV family -/

/-- `mov` register/memory to/from register, in all its forms: the destination takes the source, the flags follow it
for a register destination only, and nothing else changes (41_mov.md R131; flags after a store are the spec's D10,
the width of a memory access its D7, byte flags its D9). -/
def Obligations.MovRmRegEffect : Prop :=
  ∀ (d : Dir) (w : Width) (rm : Rm) (reg : BitVec 3) (s : State), s.simulate = true → s.mem.wf = true →
    ∃ t, exec (.movRmReg d w rm reg) s = .next t ∧
      Wrote w (rmRegDst d w rm reg) (readOperand s (rmRegSrc d w rm reg) w) s t ∧
      (match rmRegDst d w rm reg with
        | .register _ _ => FlagsOfResult w (readOperand s (rmRegSrc d w rm reg) w) s t
        | .memory _ => t.flags = s.flags) ∧
      Advanced (.movRmReg d w rm reg) (RmRegCost s s.params.cycTable.mov d rm) s t

/-- `mov` immediate to register, at both widths (41_mov.md R132; byte flags are the spec's D9). -/
def Obligations.MovImmRegEffect : Prop :=
  ∀ (w : Width) (reg : BitVec 3) (imm : Word) (s : State), s.simulate = true →
    ∃ t, exec (.movImmReg w reg imm) s = .next t ∧
      Wrote w (.register w reg) (imm.setWidth w.bits) s t ∧
      FlagsOfResult w (imm.setWidth w.bits) s t ∧
      Advanced (.movImmReg w reg imm) s.params.cycTable.mov.regImm s t

/-- `mov` immediate to register/memory, in all its forms (41_mov.md R134; flags after a store are the spec's D10). -/
def Obligations.MovImmRmEffect : Prop :=
  ∀ (w : Width) (rm : Rm) (imm : Word) (s : State), s.simulate = true → s.mem.wf = true →
    ∃ t, exec (.movImmRm w rm imm) s = .next t ∧
      Wrote w (rmOperand w rm) (imm.setWidth w.bits) s t ∧
      (match rm with
        | .register _ => FlagsOfResult w (imm.setWidth w.bits) s t
        | .directMemory _ | .indexedMemory _ _ _ | .indexedMemoryNoDisplacement _ => t.flags = s.flags) ∧
      Advanced (.movImmRm w rm imm) (ImmCost s s.params.cycTable.mov rm) s t

/-- R133: a decoded word move immediate to register updates exactly one slot, to the immediate bytes as they stand. -/
def Obligations.MovWordImmediateSetsOneSlot : Prop :=
  ∀ (reg : BitVec 3) (lo hi : Byte) (rest : List Byte) (s : State), s.simulate = true → s.status = .running →
    fetchBytes s = (0b10111#5 ++ reg : BitVec 8) :: lo :: hi :: rest →
    ∃ t, step s = .next t ∧ wordReg t reg = (hi ++ lo : BitVec 16) ∧ ∀ j, j ≠ reg → wordReg t j = wordReg s j

/-! ## The ADD, SUB and CMP family -/

/-- `add` in all its forms: the sum modulo 2^w to the destination, the flags from it, nothing else changed
(42_add_sub_cmp.md R156-R158; memory operands are the spec's D8, log entry 16). -/
def Obligations.AddEffect : Prop :=
  (∀ (d : Dir) (w : Width) (rm : Rm) (reg : BitVec 3) (s : State), s.simulate = true → s.mem.wf = true →
    ∃ t r, exec (.addRmReg d w rm reg) s = .next t ∧
      BitVec.toNat r = (BitVec.toNat (readOperand s (rmRegDst d w rm reg) w) +
        BitVec.toNat (readOperand s (rmRegSrc d w rm reg) w)) % 2 ^ w.bits ∧
      Wrote w (rmRegDst d w rm reg) r s t ∧ FlagsOfResult w r s t ∧
      Advanced (.addRmReg d w rm reg) (RmRegCost s s.params.cycTable.add.toBaseCosts d rm) s t) ∧
  (∀ (sx : Bool) (w : Width) (rm : Rm) (imm : Word) (s : State), s.simulate = true → s.mem.wf = true →
    ∃ t r, exec (.addImmRm sx w rm imm) s = .next t ∧
      BitVec.toNat r = (BitVec.toNat (readOperand s (rmOperand w rm) w) + imm.toNat) % 2 ^ w.bits ∧
      Wrote w (rmOperand w rm) r s t ∧ FlagsOfResult w r s t ∧
      Advanced (.addImmRm sx w rm imm) (ImmCost s s.params.cycTable.add.toBaseCosts rm) s t) ∧
  (∀ (w : Width) (imm : Word) (s : State), s.simulate = true →
    ∃ t r, exec (.addImmAcc w imm) s = .next t ∧
      BitVec.toNat r = (BitVec.toNat (readReg s w 0) + imm.toNat) % 2 ^ w.bits ∧
      Wrote w (.register w 0) r s t ∧ FlagsOfResult w r s t ∧
      Advanced (.addImmAcc w imm) s.params.cycTable.add.accImm s t)

/-- `sub` in all its forms: the difference modulo 2^w to the destination, the flags from it, nothing else changed
(42_add_sub_cmp.md R159-R161; memory operands are the spec's D8, log entry 16). -/
def Obligations.SubEffect : Prop :=
  (∀ (d : Dir) (w : Width) (rm : Rm) (reg : BitVec 3) (s : State), s.simulate = true → s.mem.wf = true →
    ∃ t r, exec (.subRmReg d w rm reg) s = .next t ∧
      BitVec.toNat r = (BitVec.toNat (readOperand s (rmRegDst d w rm reg) w) +
        (2 ^ w.bits - BitVec.toNat (readOperand s (rmRegSrc d w rm reg) w))) % 2 ^ w.bits ∧
      Wrote w (rmRegDst d w rm reg) r s t ∧ FlagsOfResult w r s t ∧
      Advanced (.subRmReg d w rm reg) (RmRegCost s s.params.cycTable.sub.toBaseCosts d rm) s t) ∧
  (∀ (sx : Bool) (w : Width) (rm : Rm) (imm : Word) (s : State), s.simulate = true → s.mem.wf = true →
    ∃ t r, exec (.subImmRm sx w rm imm) s = .next t ∧
      BitVec.toNat r = (BitVec.toNat (readOperand s (rmOperand w rm) w) +
        (2 ^ w.bits - imm.toNat % 2 ^ w.bits)) % 2 ^ w.bits ∧
      Wrote w (rmOperand w rm) r s t ∧ FlagsOfResult w r s t ∧
      Advanced (.subImmRm sx w rm imm) (ImmCost s s.params.cycTable.sub.toBaseCosts rm) s t) ∧
  (∀ (w : Width) (imm : Word) (s : State), s.simulate = true →
    ∃ t r, exec (.subImmAcc w imm) s = .next t ∧
      BitVec.toNat r = (BitVec.toNat (readReg s w 0) + (2 ^ w.bits - imm.toNat % 2 ^ w.bits)) % 2 ^ w.bits ∧
      Wrote w (.register w 0) r s t ∧ FlagsOfResult w r s t ∧
      Advanced (.subImmAcc w imm) s.params.cycTable.sub.accImm s t)

/-- `cmp` in all its forms: the flags of the difference modulo 2^w, registers and memory unchanged
(42_add_sub_cmp.md R162-R164; memory operands are the spec's D8, log entry 16). -/
def Obligations.CmpEffect : Prop :=
  (∀ (d : Dir) (w : Width) (rm : Rm) (reg : BitVec 3) (s : State), s.simulate = true →
    ∃ t r, exec (.cmpRmReg d w rm reg) s = .next t ∧
      BitVec.toNat r = (BitVec.toNat (readOperand s (rmRegDst d w rm reg) w) +
        (2 ^ w.bits - BitVec.toNat (readOperand s (rmRegSrc d w rm reg) w))) % 2 ^ w.bits ∧
      SameRegs s t ∧ SameMemory s t ∧ FlagsOfResult w r s t ∧
      Advanced (.cmpRmReg d w rm reg) (RmRegCost s s.params.cycTable.cmp.toBaseCosts d rm) s t) ∧
  (∀ (sx : Bool) (w : Width) (rm : Rm) (imm : Word) (s : State), s.simulate = true →
    ∃ t r, exec (.cmpImmRm sx w rm imm) s = .next t ∧
      BitVec.toNat r = (BitVec.toNat (readOperand s (rmOperand w rm) w) +
        (2 ^ w.bits - imm.toNat % 2 ^ w.bits)) % 2 ^ w.bits ∧
      SameRegs s t ∧ SameMemory s t ∧ FlagsOfResult w r s t ∧
      Advanced (.cmpImmRm sx w rm imm) (ImmCost s s.params.cycTable.cmp.toBaseCosts rm) s t) ∧
  (∀ (w : Width) (imm : Word) (s : State), s.simulate = true →
    ∃ t r, exec (.cmpImmAcc w imm) s = .next t ∧
      BitVec.toNat r = (BitVec.toNat (readReg s w 0) + (2 ^ w.bits - imm.toNat % 2 ^ w.bits)) % 2 ^ w.bits ∧
      SameRegs s t ∧ SameMemory s t ∧ FlagsOfResult w r s t ∧
      Advanced (.cmpImmAcc w imm) s.params.cycTable.cmp.accImm s t)

/-- `cmp` never mutates the register file or memory, for any operand combination, and changes only the flags, `CYC`,
`IP` and the trace (42_add_sub_cmp.md R165, whose last sentence is the spec's own derivation). -/
def Obligations.CmpNeverMutates : Prop :=
  ∀ (i : Instr) (s : State),
    ((∃ d w rm reg, i = .cmpRmReg d w rm reg) ∨ (∃ sx w rm imm, i = .cmpImmRm sx w rm imm) ∨
      (∃ w imm, i = .cmpImmAcc w imm)) →
    ∃ t, exec i s = .next t ∧ t.regs = s.regs ∧ t.mem = s.mem ∧
      t = { s with flags := t.flags, cyc := t.cyc, ip := t.ip, trace := t.trace }

/-- R166: the flags after a word `mov` to a register, `add` or `sub` of value `v`, read as a signed 16-bit integer;
`v` is what the register holds afterwards, or the result of the rules R156-R161 for a memory destination. -/
def Obligations.WordFlagLaw : Prop :=
  ∀ s : State, s.simulate = true →
    (∀ d rm reg, ∃ t, exec (.movRmReg d .word rm reg) s = .next t ∧ ∀ j, rmRegDst d .word rm reg = .register .word j →
      (t.flags.zf = true ↔ (wordReg t j).toInt = 0) ∧ (t.flags.sf = true ↔ (wordReg t j).toInt < 0)) ∧
    (∀ reg imm, ∃ t, exec (.movImmReg .word reg imm) s = .next t ∧
      (t.flags.zf = true ↔ (wordReg t reg).toInt = 0) ∧ (t.flags.sf = true ↔ (wordReg t reg).toInt < 0)) ∧
    (∀ reg imm, ∃ t, exec (.movImmRm .word (.register reg) imm) s = .next t ∧
      (t.flags.zf = true ↔ (wordReg t reg).toInt = 0) ∧ (t.flags.sf = true ↔ (wordReg t reg).toInt < 0)) ∧
    (∀ d rm reg, ∃ t, exec (.addRmReg d .word rm reg) s = .next t ∧
      let v : Word := readOperand s (rmRegDst d .word rm reg) .word + readOperand s (rmRegSrc d .word rm reg) .word
      (t.flags.zf = true ↔ v.toInt = 0) ∧ (t.flags.sf = true ↔ v.toInt < 0)) ∧
    (∀ sx rm imm, ∃ t, exec (.addImmRm sx .word rm imm) s = .next t ∧
      let v : Word := readOperand s (rmOperand .word rm) .word + imm
      (t.flags.zf = true ↔ v.toInt = 0) ∧ (t.flags.sf = true ↔ v.toInt < 0)) ∧
    (∀ imm, ∃ t, exec (.addImmAcc .word imm) s = .next t ∧
      (t.flags.zf = true ↔ (wordReg t 0).toInt = 0) ∧ (t.flags.sf = true ↔ (wordReg t 0).toInt < 0)) ∧
    (∀ d rm reg, ∃ t, exec (.subRmReg d .word rm reg) s = .next t ∧
      let v : Word := readOperand s (rmRegDst d .word rm reg) .word - readOperand s (rmRegSrc d .word rm reg) .word
      (t.flags.zf = true ↔ v.toInt = 0) ∧ (t.flags.sf = true ↔ v.toInt < 0)) ∧
    (∀ sx rm imm, ∃ t, exec (.subImmRm sx .word rm imm) s = .next t ∧
      let v : Word := readOperand s (rmOperand .word rm) .word - imm
      (t.flags.zf = true ↔ v.toInt = 0) ∧ (t.flags.sf = true ↔ v.toInt < 0)) ∧
    (∀ imm, ∃ t, exec (.subImmAcc .word imm) s = .next t ∧
      (t.flags.zf = true ↔ (wordReg t 0).toInt = 0) ∧ (t.flags.sf = true ↔ (wordReg t 0).toInt < 0))

/-- The two encodings of a register-to-register operation execute identically; `82` executes as `80` (the spec's D22);
a register `mov` immediate leaves the same registers, flags and memory in both its encodings; and so does `add`, `sub`
and `cmp` immediate to slot 0 as `IMM_RM`, with either s bit, and as `ACC_IMM` (30_encoding.md R97, which the spec
derives). -/
def Obligations.RedundantEncodingsExecuteAlike : Prop :=
  (∀ (w : Width) (x y : BitVec 3) (s : State),
    exec (.movRmReg .toRm w (.register x) y) s = exec (.movRmReg .toReg w (.register y) x) s ∧
    exec (.addRmReg .toRm w (.register x) y) s = exec (.addRmReg .toReg w (.register y) x) s ∧
    exec (.subRmReg .toRm w (.register x) y) s = exec (.subRmReg .toReg w (.register y) x) s ∧
    exec (.cmpRmReg .toRm w (.register x) y) s = exec (.cmpRmReg .toReg w (.register y) x) s) ∧
  (∀ (rm : Rm) (imm : Word) (s : State),
    exec (.addImmRm true .byte rm imm) s = exec (.addImmRm false .byte rm imm) s ∧
    exec (.subImmRm true .byte rm imm) s = exec (.subImmRm false .byte rm imm) s ∧
    exec (.cmpImmRm true .byte rm imm) s = exec (.cmpImmRm false .byte rm imm) s) ∧
  (∀ (w : Width) (x : BitVec 3) (imm : Word) (s : State),
    ∃ t u, exec (.movImmRm w (.register x) imm) s = .next t ∧ exec (.movImmReg w x imm) s = .next u ∧
      t.regs = u.regs ∧ t.flags = u.flags ∧ t.mem = u.mem) ∧
  (∀ (sx : Bool) (w : Width) (imm : Word) (s : State),
    (∃ t u, exec (.addImmRm sx w (.register 0) imm) s = .next t ∧ exec (.addImmAcc w imm) s = .next u ∧
      t.regs = u.regs ∧ t.flags = u.flags ∧ t.mem = u.mem) ∧
    (∃ t u, exec (.subImmRm sx w (.register 0) imm) s = .next t ∧ exec (.subImmAcc w imm) s = .next u ∧
      t.regs = u.regs ∧ t.flags = u.flags ∧ t.mem = u.mem) ∧
    (∃ t u, exec (.cmpImmRm sx w (.register 0) imm) s = .next t ∧ exec (.cmpImmAcc w imm) s = .next u ∧
      t.regs = u.regs ∧ t.flags = u.flags ∧ t.mem = u.mem))

/-! ## The conditional transfers -/

/-- Each of the 19 conditional transfers other than `jne` moves `IP` past its two bytes and adds `CYC_JCC_OTHER`, and
changes no register, flag or memory (43_conditional_transfer.md R181, R182, R187-R206; the OPEN cost is a parameter,
D14, log entry 2, and the statement holds for every value of it). -/
def Obligations.OtherTransfersOnlyAdvance : Prop :=
  ∀ (rel8 : Byte) (i : Instr) (s : State), i ∈ otherTransfers rel8 → s.simulate = true →
    ∃ t, exec i s = .next t ∧ t.regs = s.regs ∧ t.flags = s.flags ∧ t.mem = s.mem ∧
      t.ip = s.ip + 2 ∧ t.cyc = s.cyc + BitVec.ofNat 64 s.params.cycJccOther ∧ SameControl s t

/-- `jne` with `ZF = 0` jumps by the signed displacement from the position after it (43_conditional_transfer.md R195,
R184), to any target that `IP` can hold; it writes no register, flag or memory; its cost is the OPEN parameter (D14,
log entry 2). -/
def Obligations.JneJumpsWhenZeroFlagIsClear : Prop :=
  ∀ (rel8 : Byte) (s : State), s.simulate = true → s.flags.zf = false →
    0 ≤ (s.ip.toNat : Int) + 2 + rel8.toInt → (s.ip.toNat : Int) + 2 + rel8.toInt < 2 ^ 32 →
    ∃ t, exec (.jne rel8) s = .next t ∧ (t.ip.toNat : Int) = s.ip.toNat + 2 + rel8.toInt ∧
      t.cyc = s.cyc + BitVec.ofNat 64 s.params.cycJneTaken ∧
      t.regs = s.regs ∧ t.flags = s.flags ∧ t.mem = s.mem ∧ SameControl s t

/-- `jne` with `ZF = 1` only moves past itself (43_conditional_transfer.md R195); its cost is the OPEN parameter (D14,
log entry 2). -/
def Obligations.JneFallsThroughWhenZeroFlagIsSet : Prop :=
  ∀ (rel8 : Byte) (s : State), s.simulate = true → s.flags.zf = true →
    ∃ t, exec (.jne rel8) s = .next t ∧
      t.regs = s.regs ∧ t.flags = s.flags ∧ t.mem = s.mem ∧ Advanced (.jne rel8) s.params.cycJneNotTaken s t

/-- A taken `jne` to a position below 0 halts with `SEEK_FAULT`, recording `p0` and the target, and commits nothing
(43_conditional_transfer.md R183, 60_exceptions.md R224: the spec's decision D4, log entry 8). -/
def Obligations.JneBelowStreamStartHalts : Prop :=
  ∀ (rel8 : Byte) (s : State), s.simulate = true → s.flags.zf = false →
    (s.ip.toNat : Int) + 2 + rel8.toInt < 0 →
    ∃ t, exec (.jne rel8) s = .next t ∧ Halted (.seekFault s.ip ((s.ip.toNat : Int) + 2 + rel8.toInt)) s t

/-- R181: in simulation mode only `jne`, with the zero flag clear, leaves `IP` anywhere but right after the
instruction; every other instruction completes there. -/
def Obligations.OnlyJneRedirects : Prop :=
  ∀ (i : Instr) (s : State), s.simulate = true →
    (∀ t, exec i s = .next t → t.ip ≠ s.ip + BitVec.ofNat 32 i.length →
      ∃ rel8, i = .jne rel8 ∧ s.flags.zf = false) ∧
    ((∀ rel8, i ≠ .jne rel8) → ∃ t, exec i s = .next t ∧ t.ip = s.ip + BitVec.ofNat 32 i.length)

/-- Only `jne` reads a flag, and it reads `ZF` alone (10_state.md R29): with other flags before it, any other
instruction leaves the same registers, memory, `IP`, `CYC` and `STATUS`, and flags that it wrote or that were
there; `jne` from states that differ in `SF` does so, and leaves the flags that were there. -/
def Obligations.OnlyJneReadsFlags : Prop :=
  (∀ (i : Instr) (s : State) (f : Flags), (∀ rel8, i ≠ .jne rel8) →
    ∃ t u, exec i s = .next t ∧ exec i { s with flags := f } = .next u ∧
      t.regs = u.regs ∧ t.mem = u.mem ∧ t.ip = u.ip ∧ t.cyc = u.cyc ∧ t.status = u.status ∧
      (t.flags = u.flags ∨ (t.flags = s.flags ∧ u.flags = f))) ∧
  (∀ (rel8 : Byte) (s : State) (sf : Bool),
    ∃ t u, exec (.jne rel8) s = .next t ∧ exec (.jne rel8) { s with flags := ⟨s.flags.zf, sf⟩ } = .next u ∧
      t.regs = u.regs ∧ t.mem = u.mem ∧ t.ip = u.ip ∧ t.cyc = u.cyc ∧ t.status = u.status ∧
      t.flags = s.flags ∧ u.flags = ⟨s.flags.zf, sf⟩)

/-! ## The trace records -/

/-- An instruction that completes in simulation mode emits one record, which carries its position, bytes and decoded
fields, the flags, `CYC` and `IP` before and after (60_exceptions.md R245, R248). `DecodedFieldsOfEachFamily` says what
the decoded fields are. -/
def Obligations.ExecutedInstructionEmitsItsRecord : Prop :=
  ∀ (i : Instr) (s t : State), s.simulate = true → exec i s = .next t → s.status = .running → t.status = .running →
    ∃ r : SimRecord, t.trace = s.trace ++ [.simRecord r] ∧
      r.start = s.ip ∧ r.length = i.length ∧ r.bytes = (s.code.drop s.ip.toNat).take i.length ∧
      r.mnemonic = (decodedInstr s.ip i).mnemonic ∧ r.width = (decodedInstr s.ip i).width ∧
      r.dst = (decodedInstr s.ip i).dst ∧ r.src = (decodedInstr s.ip i).src ∧
      r.imm = (decodedInstr s.ip i).imm ∧ r.rel8 = (decodedInstr s.ip i).rel8 ∧
      r.oldFlags = s.flags.view ∧ r.newFlags = t.flags.view ∧
      t.cyc = s.cyc + BitVec.ofNat 64 r.cyclesInc ∧ r.cyclesTotal = t.cyc ∧
      r.oldIp = s.ip ∧ r.newIp = t.ip

/-- The old and new values of a record are the destination as read before and after the step, so for `cmp` they are
equal, and a conditional transfer has neither (60_exceptions.md R246: the spec's decision D19). -/
def Obligations.RecordedValuesAreTheDestination : Prop :=
  ∀ (i : Instr) (s t : State) (r : SimRecord), s.simulate = true → exec i s = .next t →
    t.trace = s.trace ++ [.simRecord r] →
    match (decodedInstr s.ip i).width, (decodedInstr s.ip i).dst with
    | some w, some dst =>
      r.oldValue = some (recordValue w (readOperand s dst w)) ∧
      r.newValue = some (recordValue w (readOperand t dst w)) ∧
      ((decodedInstr s.ip i).mnemonic = .cmp → r.newValue = r.oldValue)
    | _, _ => r.oldValue = none ∧ r.newValue = none

/-- The decoded record of every family, field by field, from the bytes that were decoded (30_encoding.md R84-R93, with
the operand of R75-R78 and the immediate of R95). The transfer bytes but `jne`'s, the secondary opcodes and the s bit
are the spec's general knowledge and the direction bit its derivation (log entry 17). -/
def Obligations.DecodedFieldsOfEachFamily : Prop :=
  ∀ (p0 : Pos) (b0 : Byte) (tail rest : List Byte) (i : Instr), decode (b0 :: tail) = .instr i rest →
    ∃ n, n + rest.length = tail.length + 1 ∧
      (b0.extractLsb' 4 4 = 0b1011#4 → ∃ imm,
        ImmediateAt (widthAt b0 3 == .word) tail rest imm ∧
        decodedInstr p0 i = ⟨p0, n, .moviReg, .mov, some (widthAt b0 3),
          some (.register (widthAt b0 3) (b0.extractLsb' 0 3)), none, some imm, none⟩) ∧
      (b0.extractLsb' 1 7 = 0b1100011#7 → ∃ modrm bytes afterRm op imm,
        tail = modrm :: bytes ∧ modrm.extractLsb' 3 3 = 0b000#3 ∧
        OperandAt (widthAt b0 0) modrm bytes afterRm op ∧ ImmediateAt (widthAt b0 0 == .word) afterRm rest imm ∧
        decodedInstr p0 i = ⟨p0, n, .moviRm, .mov, some (widthAt b0 0), some op, none, some imm, none⟩) ∧
      (b0.extractLsb' 2 6 = 0b100000#6 → ∃ modrm bytes afterRm op imm mn,
        tail = modrm :: bytes ∧
        (modrm.extractLsb' 3 3, mn) ∈ [(0b000#3, Mnemonic.add), (0b101#3, .sub), (0b111#3, .cmp)] ∧
        OperandAt (widthAt b0 0) modrm bytes afterRm op ∧
        ImmediateAt (b0.extractLsb' 1 1 == 0#1 && widthAt b0 0 == .word) afterRm rest imm ∧
        decodedInstr p0 i = ⟨p0, n, .immRm, mn, some (widthAt b0 0), some op, none, some imm, none⟩) ∧
      (∀ mn, (b0.extractLsb' 2 6, mn) ∈
          [(0b100010#6, Mnemonic.mov), (0b000000#6, .add), (0b001010#6, .sub), (0b001110#6, .cmp)] →
        ∃ modrm bytes op,
          tail = modrm :: bytes ∧ OperandAt (widthAt b0 0) modrm bytes rest op ∧
          (b0.extractLsb' 1 1 = 0#1 → decodedInstr p0 i = ⟨p0, n, .rmReg, mn, some (widthAt b0 0),
            some op, some (.register (widthAt b0 0) (modrm.extractLsb' 3 3)), none, none⟩) ∧
          (b0.extractLsb' 1 1 = 1#1 → decodedInstr p0 i = ⟨p0, n, .rmReg, mn, some (widthAt b0 0),
            some (.register (widthAt b0 0) (modrm.extractLsb' 3 3)), some op, none, none⟩)) ∧
      (∀ mn, (b0.extractLsb' 1 7, mn) ∈ [(0b0000010#7, Mnemonic.add), (0b0010110#7, .sub), (0b0011110#7, .cmp)] →
        ∃ imm, ImmediateAt (widthAt b0 0 == .word) tail rest imm ∧
          decodedInstr p0 i = ⟨p0, n, .accImm, mn, some (widthAt b0 0),
            some (.register (widthAt b0 0) 0), none, some imm, none⟩) ∧
      (∀ c, (b0, c) ∈ transferBytes → ∃ rel8,
        tail = rel8 :: rest ∧
        decodedInstr p0 i = ⟨p0, n, .jcc, .jcc c, none, none, none, none, some rel8⟩)
end

