-- ==== Sys2Proof/Laws/Bits.lean ====
section
/-! SUPPORT. The bit-field, sign-extension and byte-order helpers: what they give back. -/

namespace Sys2Proof

/-- Bit `i` of an assembled word comes from the first byte below 8 and from the second above (R71). -/
theorem getLsbD_le16 (lo hi : Byte) (i : Nat) :
    (le16 lo hi).getLsbD i = if i < 8 then lo.getLsbD i else hi.getLsbD (i - 8) :=
  BitVec.getLsbD_append.trans (by simp)

@[simp] theorem loByte_le16 (lo hi : Byte) : loByte (le16 lo hi) = lo := by
  ext i hi'
  simp [loByte, getLsbD_le16, hi', BitVec.getLsbD_eq_getElem]

@[simp] theorem hiByte_le16 (lo hi : Byte) : hiByte (le16 lo hi) = hi := by
  ext i hi'
  simp [hiByte, getLsbD_le16, BitVec.getLsbD_eq_getElem, hi']

@[simp] theorem le16_loByte_hiByte (v : Word) : le16 (loByte v) (hiByte v) = v := by
  refine BitVec.eq_of_getLsbD_eq fun i hi => ?_
  by_cases h : i < 8
  · simp [getLsbD_le16, loByte, h]
  · have hback : 8 + (i - 8) = i := by omega
    have hlt : i - 8 < 8 := by omega
    simp [getLsbD_le16, hiByte, h, hback, hlt]

@[simp] theorem trunc8_sext16 (b : Byte) : trunc8 (sext16 b) = b := by
  ext i hi
  simp [trunc8, sext16, BitVec.getLsbD_signExtend, hi]
  omega

/-- A field that fits a signed byte is restored by sign-extending its low byte. -/
theorem sext16_trunc8 {v : Word} (h : fitsSignedByte v = true) : sext16 (trunc8 v) = v := by
  simpa [fitsSignedByte, sext16, trunc8] using h

/-- A sign-extended byte fits a signed byte. -/
@[simp] theorem fitsSignedByte_sext16 (b : Byte) : fitsSignedByte (sext16 b) = true :=
  beq_iff_eq.mpr (congrArg sext16 (trunc8_sext16 b))

@[simp] theorem ofBit_widthBit (w : Width) : Width.ofBit w.bit = w := by
  cases w <;> rfl

@[simp] theorem ofBit_dirBit (d : Dir) : Dir.ofBit d.bit = d := by
  cases d <;> rfl

@[simp] theorem widthBit_ofBit : ∀ b : BitVec 1, (Width.ofBit b).bit = b := by
  decide

@[simp] theorem dirBit_ofBit : ∀ b : BitVec 1, (Dir.ofBit b).bit = b := by
  decide

/-- A ModRM byte gives back its three fields (R74). -/
theorem modrm_fields (m : BitVec 2) (r x : BitVec 3) :
    modField (m ++ r ++ x) = m ∧ regField (m ++ r ++ x) = r ∧ rmField (m ++ r ++ x) = x := by
  revert m r x
  decide

/-- A ModRM byte is its three fields (R74). -/
theorem modrm_eta : ∀ b : Byte, modField b ++ regField b ++ rmField b = b := by
  decide

end Sys2Proof
end

