-- ==== Sys2Proof/Laws/Decode.lean ====
section
/-! SUPPORT. The parts of the decoder against the parts of the encoder: fetches, operands, immediates, dispatch. -/

namespace Sys2Proof

/-! ## Fetches of encoded fields -/

@[simp] theorem fetch16_wordBytes (v : Word) (rest : List Byte) :
    fetch16 (wordBytes v ++ rest) = some (v, rest) := by
  simp [wordBytes, fetch16]

theorem fetchSext_byteBytes {v : Word} (rest : List Byte) (h : fitsSignedByte v = true) :
    fetchSext (byteBytes v ++ rest) = some (v, rest) := by
  simp [byteBytes, fetchSext, fetch8, sext16_trunc8 h]

theorem fetch16_eq_some {bytes rest : List Byte} {v : Word} (h : fetch16 bytes = some (v, rest)) :
    bytes = wordBytes v ++ rest := by
  match bytes, h with
  | lo :: hi :: tail, h =>
    obtain ⟨rfl, rfl⟩ : le16 lo hi = v ∧ tail = rest := by simpa [fetch16] using h
    simp [wordBytes]

theorem fetchSext_eq_some {bytes rest : List Byte} {v : Word} (h : fetchSext bytes = some (v, rest)) :
    bytes = byteBytes v ++ rest ∧ fitsSignedByte v = true := by
  match bytes, h with
  | b :: tail, h =>
    obtain ⟨rfl, rfl⟩ : sext16 b = v ∧ tail = rest := by simpa [fetchSext, fetch8] using h
    simp [byteBytes]

/-! ## r/m operands -/

/-- Decoding the displacement of an encoded r/m operand gives the operand back (R75-R79). -/
theorem decodeOperand_dispBytes {rm : Rm} (rest : List Byte) (h : rm.wf = true) :
    decodeOperand rm.mod rm.field (rm.dispBytes ++ rest) = some (rm, rest) := by
  cases rm with
  | register i => simp [decodeOperand, Rm.mod, Rm.field, Rm.dispBytes]
  | directMemory a => simp [decodeOperand, Rm.mod, Rm.field, Rm.dispBytes]
  | indexedMemory size base d =>
    cases size
    · simp [decodeOperand, Rm.mod, Rm.field, Rm.dispBytes, fetchSext_byteBytes rest h]
    · simp [decodeOperand, Rm.mod, Rm.field, Rm.dispBytes]
  | indexedMemoryNoDisplacement base =>
    have hb : ¬ base = 6#3 := by simpa [Rm.wf] using h
    simp [decodeOperand, Rm.mod, Rm.field, Rm.dispBytes, hb]

/-- What `DecodeOperand` gives is well formed, has the fields it was decoded from, and consumed its displacement
bytes (R75-R79). -/
theorem decodeOperand_eq_some {m : BitVec 2} {r : BitVec 3} {bytes rest : List Byte} {rm : Rm}
    (h : decodeOperand m r bytes = some (rm, rest)) :
    rm.wf = true ∧ rm.mod = m ∧ rm.field = r ∧ rm.dispBytes ++ rest = bytes := by
  have hm : m = 3#2 ∨ m = 0#2 ∨ m = 1#2 ∨ m = 2#2 :=
    (by decide : ∀ m : BitVec 2, m = 3#2 ∨ m = 0#2 ∨ m = 1#2 ∨ m = 2#2) m
  rcases hm with rfl | rfl | rfl | rfl
  · obtain ⟨rfl, rfl⟩ : Rm.register r = rm ∧ bytes = rest := by simpa [decodeOperand] using h
    simp [Rm.wf, Rm.mod, Rm.field, Rm.dispBytes]
  · by_cases hr : r = 6#3
    · subst hr
      cases hf : fetch16 bytes with
      | none => simp [decodeOperand, hf] at h
      | some p =>
        obtain ⟨rfl, rfl⟩ : Rm.directMemory p.1 = rm ∧ p.2 = rest := by simpa [decodeOperand, hf] using h
        simp [Rm.wf, Rm.mod, Rm.field, Rm.dispBytes, fetch16_eq_some hf]
    · obtain ⟨rfl, rfl⟩ : Rm.indexedMemoryNoDisplacement r = rm ∧ bytes = rest := by
        simpa [decodeOperand, hr] using h
      simp [Rm.wf, Rm.mod, Rm.field, Rm.dispBytes, hr]
  · cases hf : fetchSext bytes with
    | none => simp [decodeOperand, hf] at h
    | some p =>
      obtain ⟨rfl, rfl⟩ : Rm.indexedMemory .d8 r p.1 = rm ∧ p.2 = rest := by simpa [decodeOperand, hf] using h
      have hp := fetchSext_eq_some hf
      simp [Rm.wf, Rm.mod, Rm.field, Rm.dispBytes, hp.1, hp.2]
  · cases hf : fetch16 bytes with
    | none => simp [decodeOperand, hf] at h
    | some p =>
      obtain ⟨rfl, rfl⟩ : Rm.indexedMemory .d16 r p.1 = rm ∧ p.2 = rest := by simpa [decodeOperand, hf] using h
      simp [Rm.wf, Rm.mod, Rm.field, Rm.dispBytes, fetch16_eq_some hf]

/-! ## Immediates -/

theorem fetchImm_immBytes {w : Width} {imm : Word} (rest : List Byte) (h : immWf w imm = true) :
    fetchImm w (immBytes w imm ++ rest) = some (imm, rest) := by
  cases w
  · exact fetchSext_byteBytes rest h
  · exact fetch16_wordBytes imm rest

theorem fetchImm_eq_some {w : Width} {imm : Word} {bytes rest : List Byte}
    (h : fetchImm w bytes = some (imm, rest)) : bytes = immBytes w imm ++ rest ∧ immWf w imm = true := by
  cases w
  · exact fetchSext_eq_some h
  · exact ⟨fetch16_eq_some h, rfl⟩

theorem fetchImmRm_immRmBytes {s : Bool} {w : Width} {imm : Word} (rest : List Byte)
    (h : immRmWf s w imm = true) : fetchImmRm s w (immRmBytes s w imm ++ rest) = some (imm, rest) := by
  cases s <;> cases w
  · exact fetchSext_byteBytes rest h
  · exact fetch16_wordBytes imm rest
  · exact fetchSext_byteBytes rest h
  · exact fetchSext_byteBytes rest h

theorem fetchImmRm_eq_some {s : Bool} {w : Width} {imm : Word} {bytes rest : List Byte}
    (h : fetchImmRm s w bytes = some (imm, rest)) :
    bytes = immRmBytes s w imm ++ rest ∧ immRmWf s w imm = true := by
  cases s <;> cases w
  · exact fetchSext_eq_some h
  · exact ⟨fetch16_eq_some h, rfl⟩
  · exact fetchSext_eq_some h
  · exact fetchSext_eq_some h

/-! ## Dispatch of encoded opcode bytes (R80) -/

/-- A conditional-transfer code dispatches to its own row (R94). -/
theorem dispatch_condByte (c : Cond) : dispatch c.byte = some (.jcc c) := by
  cases c <;> decide

/-- The six opcode bits of a `RM_REG` operation (R73). -/
def RmRegOp.opcode : RmRegOp → BitVec 6
  | .mov => 0b100010#6
  | .alu .add => 0b000000#6
  | .alu .sub => 0b001010#6
  | .alu .cmp => 0b001110#6

theorem dispatch_rmReg (op : RmRegOp) : ∀ d w : BitVec 1, dispatch (op.opcode ++ d ++ w) = some (.rmReg op) := by
  rcases op with _ | (_ | _ | _) <;> decide

theorem dispatch_immRm : ∀ s w : BitVec 1, dispatch (0b100000#6 ++ s ++ w) = some .immRm := by
  decide

theorem dispatch_moviRm : ∀ w : BitVec 1, dispatch (0b1100011#7 ++ w) = some .moviRm := by
  decide

theorem dispatch_moviReg : ∀ (w : BitVec 1) (r : BitVec 3), dispatch (0b1011#4 ++ w ++ r) = some .moviReg := by
  decide

/-- The seven opcode bits of an `ACC_IMM` operation (R73). -/
def AluOp.accOpcode : AluOp → BitVec 7
  | .add => 0b0000010#7
  | .sub => 0b0010110#7
  | .cmp => 0b0011110#7

theorem dispatch_accImm (op : AluOp) : ∀ w : BitVec 1, dispatch (op.accOpcode ++ w) = some (.accImm op) := by
  cases op <;> decide

/-- The opcode byte of a dispatch entry with the field bits of `b` (R73). -/
def Entry.opcodeByte (b : Byte) : Entry → Byte
  | .jcc c => c.byte
  | .moviRm => 0b1100011#7 ++ bit0 b
  | .accImm op => op.accOpcode ++ bit0 b
  | .immRm => 0b100000#6 ++ bit1 b ++ bit0 b
  | .rmReg op => op.opcode ++ bit1 b ++ bit0 b
  | .moviReg => 0b1011#4 ++ bit3 b ++ rmField b

theorem dispatch_all_opcodeByte : ∀ b : Byte, (dispatch b).all (fun e => e.opcodeByte b == b) = true := by
  decide

/-- A byte that dispatches to a family is that family's opcode byte with its own field bits (R73, R80). -/
theorem opcodeByte_of_dispatch {b : Byte} {e : Entry} (h : dispatch b = some e) : e.opcodeByte b = b := by
  simpa [h] using dispatch_all_opcodeByte b

/-- The secondary opcode of an `IMM_RM` operation (R87). -/
def AluOp.subOpcode : AluOp → BitVec 3
  | .add => 0b000#3
  | .sub => 0b101#3
  | .cmp => 0b111#3

@[simp] theorem subOp80_subOpcode (op : AluOp) : subOp80 op.subOpcode = some op := by
  cases op <;> rfl

theorem subOp80_eq_some : ∀ (r : BitVec 3) (op : AluOp), subOp80 r = some op → r = op.subOpcode := by
  intro r op
  cases op <;> revert r <;> decide

end Sys2Proof
end

