-- ==== Sys2Proof/Laws/State.lean ====
section
/-! SUPPORT. One lemma for each field of each update of State, so that no proof unfolds a record update. -/

namespace Sys2Proof.Machine

/-! ### `setWordReg` -/

@[simp] theorem setWordReg_flags (s : State) (i : BitVec 3) (v : Word) :
    (setWordReg s i v).flags = s.flags := rfl
@[simp] theorem setWordReg_ip (s : State) (i : BitVec 3) (v : Word) :
    (setWordReg s i v).ip = s.ip := rfl
@[simp] theorem setWordReg_mem (s : State) (i : BitVec 3) (v : Word) :
    (setWordReg s i v).mem = s.mem := rfl
@[simp] theorem setWordReg_cyc (s : State) (i : BitVec 3) (v : Word) :
    (setWordReg s i v).cyc = s.cyc := rfl
@[simp] theorem setWordReg_unrec (s : State) (i : BitVec 3) (v : Word) :
    (setWordReg s i v).unrec = s.unrec := rfl
@[simp] theorem setWordReg_simulate (s : State) (i : BitVec 3) (v : Word) :
    (setWordReg s i v).simulate = s.simulate := rfl
@[simp] theorem setWordReg_status (s : State) (i : BitVec 3) (v : Word) :
    (setWordReg s i v).status = s.status := rfl
@[simp] theorem setWordReg_code (s : State) (i : BitVec 3) (v : Word) :
    (setWordReg s i v).code = s.code := rfl
@[simp] theorem setWordReg_params (s : State) (i : BitVec 3) (v : Word) :
    (setWordReg s i v).params = s.params := rfl
@[simp] theorem setWordReg_trace (s : State) (i : BitVec 3) (v : Word) :
    (setWordReg s i v).trace = s.trace := rfl

/-! ### `setByteReg` -/

@[simp] theorem setByteReg_flags (s : State) (i : BitVec 3) (v : Byte) :
    (setByteReg s i v).flags = s.flags := rfl
@[simp] theorem setByteReg_ip (s : State) (i : BitVec 3) (v : Byte) :
    (setByteReg s i v).ip = s.ip := rfl
@[simp] theorem setByteReg_mem (s : State) (i : BitVec 3) (v : Byte) :
    (setByteReg s i v).mem = s.mem := rfl
@[simp] theorem setByteReg_cyc (s : State) (i : BitVec 3) (v : Byte) :
    (setByteReg s i v).cyc = s.cyc := rfl
@[simp] theorem setByteReg_unrec (s : State) (i : BitVec 3) (v : Byte) :
    (setByteReg s i v).unrec = s.unrec := rfl
@[simp] theorem setByteReg_simulate (s : State) (i : BitVec 3) (v : Byte) :
    (setByteReg s i v).simulate = s.simulate := rfl
@[simp] theorem setByteReg_status (s : State) (i : BitVec 3) (v : Byte) :
    (setByteReg s i v).status = s.status := rfl
@[simp] theorem setByteReg_code (s : State) (i : BitVec 3) (v : Byte) :
    (setByteReg s i v).code = s.code := rfl
@[simp] theorem setByteReg_params (s : State) (i : BitVec 3) (v : Byte) :
    (setByteReg s i v).params = s.params := rfl
@[simp] theorem setByteReg_trace (s : State) (i : BitVec 3) (v : Byte) :
    (setByteReg s i v).trace = s.trace := rfl

/-! ### `memWrite` -/

@[simp] theorem memWrite_regs (s : State) (a : Word) (v : Byte) :
    (memWrite s a v).regs = s.regs := rfl
@[simp] theorem memWrite_flags (s : State) (a : Word) (v : Byte) :
    (memWrite s a v).flags = s.flags := rfl
@[simp] theorem memWrite_ip (s : State) (a : Word) (v : Byte) :
    (memWrite s a v).ip = s.ip := rfl
@[simp] theorem memWrite_mem (s : State) (a : Word) (v : Byte) :
    (memWrite s a v).mem = s.mem.set a.toNat v := rfl
@[simp] theorem memWrite_cyc (s : State) (a : Word) (v : Byte) :
    (memWrite s a v).cyc = s.cyc := rfl
@[simp] theorem memWrite_unrec (s : State) (a : Word) (v : Byte) :
    (memWrite s a v).unrec = s.unrec := rfl
@[simp] theorem memWrite_simulate (s : State) (a : Word) (v : Byte) :
    (memWrite s a v).simulate = s.simulate := rfl
@[simp] theorem memWrite_status (s : State) (a : Word) (v : Byte) :
    (memWrite s a v).status = s.status := rfl
@[simp] theorem memWrite_code (s : State) (a : Word) (v : Byte) :
    (memWrite s a v).code = s.code := rfl
@[simp] theorem memWrite_params (s : State) (a : Word) (v : Byte) :
    (memWrite s a v).params = s.params := rfl
@[simp] theorem memWrite_trace (s : State) (a : Word) (v : Byte) :
    (memWrite s a v).trace = s.trace := rfl

/-! ### `setFlags` -/

@[simp] theorem setFlags_regs (s : State) (w : Width) (r : w.Val) :
    (setFlags s w r).regs = s.regs := rfl
@[simp] theorem setFlags_flags (s : State) (w : Width) (r : w.Val) :
    (setFlags s w r).flags = flagsOf s.params.byteFlagBasis w r := rfl
@[simp] theorem setFlags_ip (s : State) (w : Width) (r : w.Val) :
    (setFlags s w r).ip = s.ip := rfl
@[simp] theorem setFlags_mem (s : State) (w : Width) (r : w.Val) :
    (setFlags s w r).mem = s.mem := rfl
@[simp] theorem setFlags_cyc (s : State) (w : Width) (r : w.Val) :
    (setFlags s w r).cyc = s.cyc := rfl
@[simp] theorem setFlags_unrec (s : State) (w : Width) (r : w.Val) :
    (setFlags s w r).unrec = s.unrec := rfl
@[simp] theorem setFlags_simulate (s : State) (w : Width) (r : w.Val) :
    (setFlags s w r).simulate = s.simulate := rfl
@[simp] theorem setFlags_status (s : State) (w : Width) (r : w.Val) :
    (setFlags s w r).status = s.status := rfl
@[simp] theorem setFlags_code (s : State) (w : Width) (r : w.Val) :
    (setFlags s w r).code = s.code := rfl
@[simp] theorem setFlags_params (s : State) (w : Width) (r : w.Val) :
    (setFlags s w r).params = s.params := rfl
@[simp] theorem setFlags_trace (s : State) (w : Width) (r : w.Val) :
    (setFlags s w r).trace = s.trace := rfl

/-! ### `emit` -/

@[simp] theorem emit_regs (s : State) (item : TraceItem) :
    (emit s item).regs = s.regs := rfl
@[simp] theorem emit_flags (s : State) (item : TraceItem) :
    (emit s item).flags = s.flags := rfl
@[simp] theorem emit_ip (s : State) (item : TraceItem) :
    (emit s item).ip = s.ip := rfl
@[simp] theorem emit_mem (s : State) (item : TraceItem) :
    (emit s item).mem = s.mem := rfl
@[simp] theorem emit_cyc (s : State) (item : TraceItem) :
    (emit s item).cyc = s.cyc := rfl
@[simp] theorem emit_unrec (s : State) (item : TraceItem) :
    (emit s item).unrec = s.unrec := rfl
@[simp] theorem emit_simulate (s : State) (item : TraceItem) :
    (emit s item).simulate = s.simulate := rfl
@[simp] theorem emit_status (s : State) (item : TraceItem) :
    (emit s item).status = s.status := rfl
@[simp] theorem emit_code (s : State) (item : TraceItem) :
    (emit s item).code = s.code := rfl
@[simp] theorem emit_params (s : State) (item : TraceItem) :
    (emit s item).params = s.params := rfl
@[simp] theorem emit_trace (s : State) (item : TraceItem) :
    (emit s item).trace = s.trace ++ [item] := rfl

/-! ### `writeReg` -/

@[simp] theorem writeReg_flags (s : State) (w : Width) (i : BitVec 3) (v : w.Val) :
    (writeReg s w i v).flags = s.flags := by cases w <;> rfl
@[simp] theorem writeReg_ip (s : State) (w : Width) (i : BitVec 3) (v : w.Val) :
    (writeReg s w i v).ip = s.ip := by cases w <;> rfl
@[simp] theorem writeReg_mem (s : State) (w : Width) (i : BitVec 3) (v : w.Val) :
    (writeReg s w i v).mem = s.mem := by cases w <;> rfl
@[simp] theorem writeReg_cyc (s : State) (w : Width) (i : BitVec 3) (v : w.Val) :
    (writeReg s w i v).cyc = s.cyc := by cases w <;> rfl
@[simp] theorem writeReg_unrec (s : State) (w : Width) (i : BitVec 3) (v : w.Val) :
    (writeReg s w i v).unrec = s.unrec := by cases w <;> rfl
@[simp] theorem writeReg_simulate (s : State) (w : Width) (i : BitVec 3) (v : w.Val) :
    (writeReg s w i v).simulate = s.simulate := by cases w <;> rfl
@[simp] theorem writeReg_status (s : State) (w : Width) (i : BitVec 3) (v : w.Val) :
    (writeReg s w i v).status = s.status := by cases w <;> rfl
@[simp] theorem writeReg_code (s : State) (w : Width) (i : BitVec 3) (v : w.Val) :
    (writeReg s w i v).code = s.code := by cases w <;> rfl
@[simp] theorem writeReg_params (s : State) (w : Width) (i : BitVec 3) (v : w.Val) :
    (writeReg s w i v).params = s.params := by cases w <;> rfl
@[simp] theorem writeReg_trace (s : State) (w : Width) (i : BitVec 3) (v : w.Val) :
    (writeReg s w i v).trace = s.trace := by cases w <;> rfl

/-! ### `writeOperand` -/

@[simp] theorem writeOperand_flags (s : State) (op : Operand) (w : Width) (v : w.Val) :
    (writeOperand s op w v).flags = s.flags := by
  cases op <;> simp [writeOperand]
@[simp] theorem writeOperand_ip (s : State) (op : Operand) (w : Width) (v : w.Val) :
    (writeOperand s op w v).ip = s.ip := by
  cases op <;> simp [writeOperand]
@[simp] theorem writeOperand_cyc (s : State) (op : Operand) (w : Width) (v : w.Val) :
    (writeOperand s op w v).cyc = s.cyc := by
  cases op <;> simp [writeOperand]
@[simp] theorem writeOperand_unrec (s : State) (op : Operand) (w : Width) (v : w.Val) :
    (writeOperand s op w v).unrec = s.unrec := by
  cases op <;> simp [writeOperand]
@[simp] theorem writeOperand_simulate (s : State) (op : Operand) (w : Width) (v : w.Val) :
    (writeOperand s op w v).simulate = s.simulate := by
  cases op <;> simp [writeOperand]
@[simp] theorem writeOperand_status (s : State) (op : Operand) (w : Width) (v : w.Val) :
    (writeOperand s op w v).status = s.status := by
  cases op <;> simp [writeOperand]
@[simp] theorem writeOperand_code (s : State) (op : Operand) (w : Width) (v : w.Val) :
    (writeOperand s op w v).code = s.code := by
  cases op <;> simp [writeOperand]
@[simp] theorem writeOperand_params (s : State) (op : Operand) (w : Width) (v : w.Val) :
    (writeOperand s op w v).params = s.params := by
  cases op <;> simp [writeOperand]
@[simp] theorem writeOperand_trace (s : State) (op : Operand) (w : Width) (v : w.Val) :
    (writeOperand s op w v).trace = s.trace := by
  cases op <;> simp [writeOperand]

/-! ### `skip` -/

@[simp] theorem skip_regs (b0 : Byte) (s : State) :
    (skip b0 s).regs = s.regs := rfl
@[simp] theorem skip_flags (b0 : Byte) (s : State) :
    (skip b0 s).flags = s.flags := rfl
@[simp] theorem skip_ip (b0 : Byte) (s : State) :
    (skip b0 s).ip = ipAfter s 1 := rfl
@[simp] theorem skip_mem (b0 : Byte) (s : State) :
    (skip b0 s).mem = s.mem := rfl
@[simp] theorem skip_cyc (b0 : Byte) (s : State) :
    (skip b0 s).cyc = s.cyc := rfl
@[simp] theorem skip_unrec (b0 : Byte) (s : State) :
    (skip b0 s).unrec = s.unrec + 1 := rfl
@[simp] theorem skip_simulate (b0 : Byte) (s : State) :
    (skip b0 s).simulate = s.simulate := rfl
@[simp] theorem skip_status (b0 : Byte) (s : State) :
    (skip b0 s).status = s.status := rfl
@[simp] theorem skip_code (b0 : Byte) (s : State) :
    (skip b0 s).code = s.code := rfl
@[simp] theorem skip_params (b0 : Byte) (s : State) :
    (skip b0 s).params = s.params := rfl
@[simp] theorem skip_trace (b0 : Byte) (s : State) :
    (skip b0 s).trace = s.trace ++ [.unrecognised s.ip b0 (s.unrec + 1)] := rfl

/-! ### `endRun` -/

@[simp] theorem endRun_regs (s : State) :
    (endRun s).regs = s.regs := by
  unfold endRun; split <;> rfl
@[simp] theorem endRun_flags (s : State) :
    (endRun s).flags = s.flags := by
  unfold endRun; split <;> rfl
@[simp] theorem endRun_ip (s : State) :
    (endRun s).ip = s.ip := by
  unfold endRun; split <;> rfl
@[simp] theorem endRun_mem (s : State) :
    (endRun s).mem = s.mem := by
  unfold endRun; split <;> rfl
@[simp] theorem endRun_cyc (s : State) :
    (endRun s).cyc = s.cyc := by
  unfold endRun; split <;> rfl
@[simp] theorem endRun_unrec (s : State) :
    (endRun s).unrec = s.unrec := by
  unfold endRun; split <;> rfl
@[simp] theorem endRun_simulate (s : State) :
    (endRun s).simulate = s.simulate := by
  unfold endRun; split <;> rfl
@[simp] theorem endRun_status (s : State) :
    (endRun s).status = .cleanEnd := by
  unfold endRun; split <;> rfl
@[simp] theorem endRun_code (s : State) :
    (endRun s).code = s.code := by
  unfold endRun; split <;> rfl
@[simp] theorem endRun_params (s : State) :
    (endRun s).params = s.params := by
  unfold endRun; split <;> rfl

/-! ### `commitDecode` -/

@[simp] theorem commitDecode_regs (i : Instr) (s : State) :
    (commitDecode i s).regs = s.regs := rfl
@[simp] theorem commitDecode_flags (i : Instr) (s : State) :
    (commitDecode i s).flags = s.flags := rfl
@[simp] theorem commitDecode_ip (i : Instr) (s : State) :
    (commitDecode i s).ip = ipAfter s i.length := rfl
@[simp] theorem commitDecode_mem (i : Instr) (s : State) :
    (commitDecode i s).mem = s.mem := rfl
@[simp] theorem commitDecode_cyc (i : Instr) (s : State) :
    (commitDecode i s).cyc = s.cyc := rfl
@[simp] theorem commitDecode_unrec (i : Instr) (s : State) :
    (commitDecode i s).unrec = s.unrec := rfl
@[simp] theorem commitDecode_simulate (i : Instr) (s : State) :
    (commitDecode i s).simulate = s.simulate := rfl
@[simp] theorem commitDecode_status (i : Instr) (s : State) :
    (commitDecode i s).status = s.status := rfl
@[simp] theorem commitDecode_code (i : Instr) (s : State) :
    (commitDecode i s).code = s.code := rfl
@[simp] theorem commitDecode_params (i : Instr) (s : State) :
    (commitDecode i s).params = s.params := rfl
@[simp] theorem commitDecode_trace (i : Instr) (s : State) :
    (commitDecode i s).trace = s.trace ++ [.decodeRecord (decodeRecord i s)] := rfl

/-! ### `commitSim` -/

@[simp] theorem commitSim_regs (i : Instr) (s : State) (e : Executed) :
    (commitSim i s e).regs = e.state.regs := rfl
@[simp] theorem commitSim_flags (i : Instr) (s : State) (e : Executed) :
    (commitSim i s e).flags = e.state.flags := rfl
@[simp] theorem commitSim_ip (i : Instr) (s : State) (e : Executed) :
    (commitSim i s e).ip = e.target := rfl
@[simp] theorem commitSim_mem (i : Instr) (s : State) (e : Executed) :
    (commitSim i s e).mem = e.state.mem := rfl
@[simp] theorem commitSim_cyc (i : Instr) (s : State) (e : Executed) :
    (commitSim i s e).cyc = s.cyc + BitVec.ofNat 64 e.cost := rfl
@[simp] theorem commitSim_unrec (i : Instr) (s : State) (e : Executed) :
    (commitSim i s e).unrec = e.state.unrec := rfl
@[simp] theorem commitSim_simulate (i : Instr) (s : State) (e : Executed) :
    (commitSim i s e).simulate = e.state.simulate := rfl
@[simp] theorem commitSim_status (i : Instr) (s : State) (e : Executed) :
    (commitSim i s e).status = e.state.status := rfl
@[simp] theorem commitSim_code (i : Instr) (s : State) (e : Executed) :
    (commitSim i s e).code = e.state.code := rfl
@[simp] theorem commitSim_params (i : Instr) (s : State) (e : Executed) :
    (commitSim i s e).params = e.state.params := rfl
@[simp] theorem commitSim_trace (i : Instr) (s : State) (e : Executed) :
    (commitSim i s e).trace = e.state.trace ++ [.simRecord (simRecord i s e)] := rfl

/-! ### `withFetchWord` -/

@[simp] theorem withFetchWord_regs (s : State) (nbits w : Nat) :
    (s.withFetchWord nbits w).regs = s.regs := rfl
@[simp] theorem withFetchWord_flags (s : State) (nbits w : Nat) :
    (s.withFetchWord nbits w).flags = s.flags := rfl
@[simp] theorem withFetchWord_ip (s : State) (nbits w : Nat) :
    (s.withFetchWord nbits w).ip = s.ip := rfl
@[simp] theorem withFetchWord_mem (s : State) (nbits w : Nat) :
    (s.withFetchWord nbits w).mem = s.mem := rfl
@[simp] theorem withFetchWord_cyc (s : State) (nbits w : Nat) :
    (s.withFetchWord nbits w).cyc = s.cyc := rfl
@[simp] theorem withFetchWord_unrec (s : State) (nbits w : Nat) :
    (s.withFetchWord nbits w).unrec = s.unrec := rfl
@[simp] theorem withFetchWord_simulate (s : State) (nbits w : Nat) :
    (s.withFetchWord nbits w).simulate = s.simulate := rfl
@[simp] theorem withFetchWord_status (s : State) (nbits w : Nat) :
    (s.withFetchWord nbits w).status = .running := rfl
@[simp] theorem withFetchWord_code (s : State) (nbits w : Nat) :
    (s.withFetchWord nbits w).code = placeBytes s.code s.ip.toNat (tableWordBytes nbits w) := rfl
@[simp] theorem withFetchWord_params (s : State) (nbits w : Nat) :
    (s.withFetchWord nbits w).params = s.params := rfl
@[simp] theorem withFetchWord_trace (s : State) (nbits w : Nat) :
    (s.withFetchWord nbits w).trace = s.trace := rfl

/-! ### `launch` -/

@[simp] theorem launch_regs (l : Launch) :
    (State.launch l).regs = l.resetRegs := rfl
@[simp] theorem launch_flags (l : Launch) :
    (State.launch l).flags = { zf := false, sf := false } := rfl
@[simp] theorem launch_ip (l : Launch) :
    (State.launch l).ip = 0 := rfl
@[simp] theorem launch_mem (l : Launch) :
    (State.launch l).mem = [] := rfl
@[simp] theorem launch_cyc (l : Launch) :
    (State.launch l).cyc = 0 := rfl
@[simp] theorem launch_unrec (l : Launch) :
    (State.launch l).unrec = 0 := rfl
@[simp] theorem launch_simulate (l : Launch) :
    (State.launch l).simulate = l.simulate := rfl
@[simp] theorem launch_status (l : Launch) :
    (State.launch l).status = .running := rfl
@[simp] theorem launch_code (l : Launch) :
    (State.launch l).code = l.code := rfl
@[simp] theorem launch_params (l : Launch) :
    (State.launch l).params = l.params := rfl
@[simp] theorem launch_trace (l : Launch) :
    (State.launch l).trace = [] := rfl

end Sys2Proof.Machine
end

