-- ==== Sys2Proof/Laws/Memory.lean ====
section
/-! SUPPORT. The data memory: read after write, and the canonical form that every operation keeps (R51, R52). -/

namespace Sys2Proof.Machine

/-- Below its lower bound a well-formed memory lists nothing. -/
theorem Memory.get_below {m : Memory} {low a : Nat} (h : Memory.wfFrom low m = true) (ha : a < low) :
    Memory.get m a = unlistedByte := by
  induction m generalizing low with
  | nil => rfl
  | cons cell rest ih =>
    simp only [Memory.wfFrom, Bool.and_eq_true, decide_eq_true_eq] at h
    have hne : ¬ cell.1 = a := by omega
    simp [Memory.get, hne, ih h.2 (by omega)]

/-- A well-formed memory stays well formed under a smaller lower bound. -/
theorem Memory.wfFrom_mono {m : Memory} {low low' : Nat} (h : Memory.wfFrom low m = true) (hl : low' ≤ low) :
    Memory.wfFrom low' m = true := by
  cases m with
  | nil => rfl
  | cons cell rest =>
    simp only [Memory.wfFrom, Bool.and_eq_true, decide_eq_true_eq] at h ⊢
    exact ⟨⟨⟨by omega, h.1.1.2⟩, h.1.2⟩, h.2⟩

/-- Putting a byte in front of a memory that lies above it keeps the canonical form. -/
theorem Memory.wfFrom_cons {m : Memory} {low a : Nat} {v : Byte} (h : Memory.wfFrom (a + 1) m = true)
    (hl : low ≤ a) (ha : a < memSize) : Memory.wfFrom low (Memory.cons a v m) = true := by
  unfold Memory.cons
  split
  · exact Memory.wfFrom_mono h (by omega)
  · simp_all [Memory.wfFrom]

/-- A write keeps the canonical form above any bound that the address respects. -/
theorem Memory.wfFrom_set {m : Memory} {low a : Nat} (v : Byte) (h : Memory.wfFrom low m = true)
    (hl : low ≤ a) (ha : a < memSize) : Memory.wfFrom low (Memory.set m a v) = true := by
  induction m generalizing low with
  | nil => exact Memory.wfFrom_cons rfl hl ha
  | cons cell rest ih =>
    have h' := h
    simp only [Memory.wfFrom, Bool.and_eq_true, decide_eq_true_eq] at h'
    simp only [Memory.set]
    split
    · refine Memory.wfFrom_cons ?_ hl ha
      simp only [Memory.wfFrom, Bool.and_eq_true, decide_eq_true_eq]
      exact ⟨⟨⟨by omega, h'.1.1.2⟩, h'.1.2⟩, h'.2⟩
    · split
      · exact Memory.wfFrom_cons (Memory.wfFrom_mono h'.2 (by omega)) hl ha
      · simp only [Memory.wfFrom, Bool.and_eq_true, decide_eq_true_eq]
        exact ⟨h'.1, ih h'.2 (by omega)⟩

/-- A write keeps the canonical form. -/
theorem Memory.wf_set {m : Memory} {a : Nat} (v : Byte) (h : m.wf = true) (ha : a < memSize) :
    (m.set a v).wf = true :=
  Memory.wfFrom_set v h (Nat.zero_le a) ha

/-- The byte at the head of `cons` is the one put there, if nothing below is listed at that address. -/
theorem Memory.get_cons_same {m : Memory} {a : Nat} {v : Byte} (h : Memory.wfFrom (a + 1) m = true) :
    Memory.get (Memory.cons a v m) a = v := by
  unfold Memory.cons
  split
  · rename_i hv
    rw [hv]
    exact Memory.get_below h (by omega)
  · simp [Memory.get]

/-- `cons` leaves every other address alone. -/
theorem Memory.get_cons_ne {m : Memory} {a b : Nat} {v : Byte} (h : a ≠ b) :
    Memory.get (Memory.cons a v m) b = Memory.get m b := by
  unfold Memory.cons
  split
  · rfl
  · simp [Memory.get, h]

/-- A read after a write to the same address gives the byte written. -/
theorem Memory.get_set_same {m : Memory} {low a : Nat} (v : Byte) (h : Memory.wfFrom low m = true) :
    Memory.get (Memory.set m a v) a = v := by
  induction m generalizing low with
  | nil => exact Memory.get_cons_same rfl
  | cons cell rest ih =>
    have h' := h
    simp only [Memory.wfFrom, Bool.and_eq_true, decide_eq_true_eq] at h'
    simp only [Memory.set]
    split
    · refine Memory.get_cons_same ?_
      simp only [Memory.wfFrom, Bool.and_eq_true, decide_eq_true_eq]
      exact ⟨⟨⟨by omega, h'.1.1.2⟩, h'.1.2⟩, h'.2⟩
    · split
      · exact Memory.get_cons_same (Memory.wfFrom_mono h'.2 (by omega))
      · have hne : ¬ cell.1 = a := by omega
        simp [Memory.get, hne, ih h'.2]

/-- A write leaves every other address alone, in any memory. -/
theorem Memory.get_set_ne {m : Memory} {a b : Nat} (v : Byte) (h : a ≠ b) :
    Memory.get (Memory.set m a v) b = Memory.get m b := by
  induction m with
  | nil => simp [Memory.set, Memory.get_cons_ne h]
  | cons cell rest ih =>
    simp only [Memory.set]
    split
    · rw [Memory.get_cons_ne h]
    · split
      · rename_i hk
        rw [Memory.get_cons_ne h]
        simp [Memory.get, ← hk, h]
      · simp [Memory.get, ih]

/-- `MemRead` after `MemWrite` at the same address (R51, R52). -/
theorem memRead_memWrite_same {s : State} (a : Word) (v : Byte) (h : s.mem.wf = true) :
    memRead (memWrite s a v) a = v :=
  Memory.get_set_same v h

/-- `MemWrite` changes no other byte (R52). -/
theorem memRead_memWrite_ne {s : State} {a b : Word} (v : Byte) (h : b ≠ a) :
    memRead (memWrite s a v) b = memRead s b :=
  Memory.get_set_ne v (fun hab => h (BitVec.eq_of_toNat_eq hab.symm))

/-- `MemWrite` keeps the canonical form. -/
theorem memWrite_wf {s : State} (a : Word) (v : Byte) (h : s.mem.wf = true) : (memWrite s a v).mem.wf = true :=
  Memory.wf_set v h a.isLt

/-- Writing an operand keeps the canonical form of the memory. -/
theorem writeOperand_wf {s : State} (op : Operand) (w : Width) (v : w.Val) (h : s.mem.wf = true) :
    (writeOperand s op w v).mem.wf = true := by
  cases op with
  | register w' i => simpa [writeOperand] using h
  | memory m => exact memWrite_wf _ _ h

/-- The memory after reset is in canonical form. -/
theorem reset_memory_wf : State.reset.mem.wf = true := rfl

end Sys2Proof.Machine
end

