-- ==== Sys2Proof/Laws/Registers.lean ====
section
/-! SUPPORT. The register file: read after write at both widths, and the byte aliasing (R20-R23). -/

namespace Sys2Proof.Machine

@[simp] theorem wordReg_setWordReg_same (s : State) (i : BitVec 3) (v : Word) :
    wordReg (setWordReg s i v) i = v := by
  simp [wordReg, setWordReg]

theorem wordReg_setWordReg_ne {s : State} {i j : BitVec 3} (v : Word) (h : j ≠ i) :
    wordReg (setWordReg s i v) j = wordReg s j := by
  have hne : i.toNat ≠ j.toNat := fun e => h (BitVec.eq_of_toNat_eq e.symm)
  simp [wordReg, setWordReg, hne]

/-- The byte slots are 0-3 (R22). -/
theorem byteSlot_lt : ∀ i : BitVec 3, (byteSlot i).toNat < 4 := by
  decide

/-- Two byte registers in one slot are its two halves (R22). -/
theorem byteSlot_halves : ∀ i j : BitVec 3, j ≠ i → byteSlot j = byteSlot i → isLowHalf j = !isLowHalf i := by
  decide

@[simp] theorem byteReg_setByteReg_same (s : State) (i : BitVec 3) (v : Byte) :
    byteReg (setByteReg s i v) i = v := by
  cases h : isLowHalf i <;> simp [byteReg, setByteReg, h]

theorem byteReg_setByteReg_ne {s : State} {i j : BitVec 3} (v : Byte) (h : j ≠ i) :
    byteReg (setByteReg s i v) j = byteReg s j := by
  by_cases hs : byteSlot j = byteSlot i
  · have hh := byteSlot_halves i j h hs
    cases hi : isLowHalf i <;> simp [byteReg, setByteReg, hs, hh, hi]
  · simp [byteReg, setByteReg, wordReg_setWordReg_ne _ hs]

/-- Slots 4-7 have no byte view: a byte write leaves them alone (R23). -/
theorem wordReg_setByteReg_high {s : State} (i : BitVec 3) {j : BitVec 3} (v : Byte) (h : 4 ≤ j.toNat) :
    wordReg (setByteReg s i v) j = wordReg s j := by
  have hne : j ≠ byteSlot i := by
    intro e
    have hlt := byteSlot_lt i
    rw [← e] at hlt
    omega
  simp [setByteReg, wordReg_setWordReg_ne _ hne]

@[simp] theorem readReg_writeReg_same (s : State) (w : Width) (i : BitVec 3) (v : w.Val) :
    readReg (writeReg s w i v) w i = v := by
  cases w <;> simp [readReg, writeReg]

theorem readReg_writeReg_ne {s : State} {w : Width} {i j : BitVec 3} (v : w.Val) (h : j ≠ i) :
    readReg (writeReg s w i v) w j = readReg s w j := by
  cases w
  · exact byteReg_setByteReg_ne v h
  · exact wordReg_setWordReg_ne v h

/-- Register reads depend on the register file alone. -/
theorem wordReg_congr {s t : State} (h : t.regs = s.regs) (i : BitVec 3) : wordReg t i = wordReg s i := by
  simp [wordReg, h]

theorem byteReg_congr {s t : State} (h : t.regs = s.regs) (i : BitVec 3) : byteReg t i = byteReg s i := by
  simp [byteReg, wordReg_congr h]

theorem readReg_congr {s t : State} (h : t.regs = s.regs) (w : Width) (i : BitVec 3) :
    readReg t w i = readReg s w i := by
  cases w
  · exact byteReg_congr h i
  · exact wordReg_congr h i

end Sys2Proof.Machine
end

