-- ==== Sys2Proof/Laws/Operands.lean ====
section
/-! SUPPORT. Operand access: what a read depends on, and everything a write does (R57, R60, R61). -/

namespace Sys2Proof.Machine

/-- An effective address depends on the register file alone (R57, R59). -/
theorem effectiveAddress_congr {s t : State} (h : t.regs = s.regs) (m : MemOperand) :
    effectiveAddress t m = effectiveAddress s m := by
  have hb : ∀ b, baseIndex t b = baseIndex s b := by
    intro b
    unfold baseIndex
    split <;> simp [wordReg_congr h]
  cases m <;> simp [effectiveAddress, hb]

@[simp] theorem effectiveAddress_memWrite (s : State) (a : Word) (v : Byte) (m : MemOperand) :
    effectiveAddress (memWrite s a v) m = effectiveAddress s m :=
  effectiveAddress_congr rfl m

/-- A memory read depends on the memory alone (R51). -/
theorem memRead_congr {s t : State} (h : t.mem = s.mem) (a : Word) : memRead t a = memRead s a := by
  simp [memRead, h]

/-- An operand read depends on the registers, the memory and `MEM_READ_EXT` alone (R60). -/
theorem readOperand_congr {s t : State} (hr : t.regs = s.regs) (hm : t.mem = s.mem) (hp : t.params = s.params)
    (op : Operand) (w : Width) : readOperand t op w = readOperand s op w := by
  cases op with
  | register w' i => exact readReg_congr hr w i
  | memory m => simp [readOperand, hp, effectiveAddress_congr hr, memRead_congr hm]

/-- The byte a store writes is the low 8 bits of the value (R61). -/
theorem storedByte_eq (w : Width) (v : w.Val) : storedByte w v = BitVec.setWidth 8 v := by
  cases w
  · simp [storedByte]
  · rfl

/-- Writing a register of width `w` leaves every other register alone (R21, R23). -/
theorem writeReg_sameRegsBut (s : State) (w : Width) (i : BitVec 3) (v : w.Val) :
    SameRegsBut w i s (writeReg s w i v) := by
  cases w
  · exact ⟨fun _ h => byteReg_setByteReg_ne v h, fun _ h => wordReg_setByteReg_high i v h⟩
  · exact fun _ h => wordReg_setWordReg_ne v h

/-- Everything `WriteOperand` does to the registers and the memory (R61). -/
theorem writeOperand_wrote {s : State} (op : Operand) (w : Width) (v : w.Val) (h : s.mem.wf = true) :
    Wrote w op v s (writeOperand s op w v) := by
  cases op with
  | register w' i =>
    exact ⟨readReg_writeReg_same s w i v, writeReg_sameRegsBut s w i v, fun a => by
      simp [writeOperand, memRead_congr (writeReg_mem s w i v)]⟩
  | memory m =>
    refine ⟨?_, ?_, fun i => wordReg_congr rfl i⟩
    · simp [writeOperand, memRead_memWrite_same _ _ h, storedByte_eq]
    · exact fun b hb => memRead_memWrite_ne _ hb

/-- `Wrote` looks at the registers and the memory of the state after, and nothing else of it. -/
theorem Wrote.congr {w : Width} {dst : Operand} {v : w.Val} {s t u : State} (h : Wrote w dst v s t)
    (hr : u.regs = t.regs) (hm : u.mem = t.mem) : Wrote w dst v s u := by
  cases dst with
  | register w' i =>
    obtain ⟨h1, h2, h3⟩ := h
    refine ⟨(readReg_congr hr w i).trans h1, ?_, fun a => (memRead_congr hm a).trans (h3 a)⟩
    cases w
    · exact ⟨fun j hj => (byteReg_congr hr j).trans (h2.1 j hj),
        fun j hj => (wordReg_congr hr j).trans (h2.2 j hj)⟩
    · exact fun j hj => (wordReg_congr hr j).trans (h2 j hj)
  | memory m =>
    obtain ⟨h1, h2, h3⟩ := h
    exact ⟨(memRead_congr hm _).trans h1, fun b hb => (memRead_congr hm b).trans (h2 b hb),
      fun i => (wordReg_congr hr i).trans (h3 i)⟩

/-- The sign flag is the sign of the result read as an integer (R27, R28). -/
theorem signFlag_iff (basis : ByteFlagBasis) (w : Width) (r : w.Val) :
    signFlag basis w r = true ↔ SignOf basis w r := by
  cases w <;> cases basis <;> simp [signFlag, SignOf, BitVec.msb_eq_toInt]

/-- The flags of a state whose flags were set from `r` (R28). -/
theorem flagsOfResult_of_eq {w : Width} {r : w.Val} {s t : State}
    (h : t.flags = flagsOf s.params.byteFlagBasis w r) : FlagsOfResult w r s t := by
  refine ⟨?_, ?_⟩
  · simp [h, flagsOf, zeroFlag]
  · simp only [h, flagsOf]
    exact signFlag_iff _ _ _

end Sys2Proof.Machine
end

