-- ==== Sys2Proof/Laws/Exec.lean ====
section
/-! SUPPORT. Each shared operation of the meanings, said once: the two commits, the bodies, and the cases of a step. -/

namespace Sys2Proof.Machine

/-! ## The two commits (R116-R118) -/

theorem complete_sim {i : Instr} {body : Pos → State → Executed} {s : State} (h : s.simulate = true) :
    complete i body s = .next (commitSim i s (body (ipAfter s i.length) s)) := by
  simp [complete, h]

theorem complete_decodeOnly {i : Instr} {body : Pos → State → Executed} {s : State} (h : s.simulate = false) :
    complete i body s = .next (commitDecode i s) := by
  simp [complete, h]

/-- A completed instruction is committed in one of the two ways. -/
theorem complete_cases {i : Instr} {body : Pos → State → Executed} {s t : State} (h : complete i body s = .next t) :
    (s.simulate = true ∧ t = commitSim i s (body (ipAfter s i.length) s)) ∨
    (s.simulate = false ∧ t = commitDecode i s) := by
  cases hs : s.simulate with
  | true =>
    rw [complete_sim hs] at h
    exact .inl ⟨rfl, (Host.Outcome.next.inj h).symm⟩
  | false =>
    rw [complete_decodeOnly hs] at h
    exact .inr ⟨rfl, (Host.Outcome.next.inj h).symm⟩

/-! ## What a body leaves to the commit -/

/-- An `Execute` body stages writes to the registers, the flags and the memory only, keeps the memory's canonical
form, and gives the next position it was handed (R117, R119). -/
structure Executed.Staged (s : State) (ipNext : Pos) (e : Executed) : Prop where
  inputs : SameInputs s e.state
  status : e.state.status = s.status
  unrec : e.state.unrec = s.unrec
  trace : e.state.trace = s.trace
  memory : s.mem.wf = true → e.state.mem.wf = true
  target : e.target = ipNext

theorem moveBody_staged (w : Width) (dst : Operand) (v : w.Val) (cost : Nat) (ipNext : Pos) (s : State) :
    (moveBody w dst v cost ipNext s).Staged s ipNext := by
  have hm := writeOperand_wf (s := s) dst w v
  constructor <;> cases hd : dst.isRegister <;> simp_all [moveBody, SameInputs]

theorem aluBody_staged (w : Width) (dst : Operand) (r : w.Val) (cost : Nat) (ipNext : Pos) (s : State) :
    (aluBody w dst r cost ipNext s).Staged s ipNext := by
  have hm := writeOperand_wf (s := s) dst w r
  constructor <;> simp_all [aluBody, SameInputs]

theorem cmpBody_staged (w : Width) (dst : Operand) (r : w.Val) (cost : Nat) (ipNext : Pos) (s : State) :
    (cmpBody w dst r cost ipNext s).Staged s ipNext := by
  constructor <;> simp [cmpBody, SameInputs]

theorem fallThroughBody_staged (ipNext : Pos) (s : State) : (fallThroughBody ipNext s).Staged s ipNext := by
  constructor <;> simp [fallThroughBody, SameInputs]

theorem notTakenBody_staged (ipNext : Pos) (s : State) : (notTakenBody ipNext s).Staged s ipNext := by
  constructor <;> simp [notTakenBody, SameInputs]

/-! ## The shape of every meaning -/

/-- Every instruction but `jne` completes with a body that stages its writes. -/
theorem exec_eq_complete {i : Instr} (hi : ∀ rel8, i ≠ .jne rel8) (s : State) :
    ∃ body : Pos → State → Executed, exec i s = complete i body s ∧ ∀ p, (body p s).Staged s p := by
  cases i with
  | movRmReg d w rm reg => exact ⟨_, rfl, fun p => moveBody_staged ..⟩
  | movImmReg w reg imm => exact ⟨_, rfl, fun p => moveBody_staged ..⟩
  | movImmRm w rm imm => exact ⟨_, rfl, fun p => moveBody_staged ..⟩
  | addRmReg d w rm reg => exact ⟨_, rfl, fun p => aluBody_staged ..⟩
  | addImmRm sx w rm imm => exact ⟨_, rfl, fun p => aluBody_staged ..⟩
  | addImmAcc w imm => exact ⟨_, rfl, fun p => aluBody_staged ..⟩
  | subRmReg d w rm reg => exact ⟨_, rfl, fun p => aluBody_staged ..⟩
  | subImmRm sx w rm imm => exact ⟨_, rfl, fun p => aluBody_staged ..⟩
  | subImmAcc w imm => exact ⟨_, rfl, fun p => aluBody_staged ..⟩
  | cmpRmReg d w rm reg => exact ⟨_, rfl, fun p => cmpBody_staged ..⟩
  | cmpImmRm sx w rm imm => exact ⟨_, rfl, fun p => cmpBody_staged ..⟩
  | cmpImmAcc w imm => exact ⟨_, rfl, fun p => cmpBody_staged ..⟩
  | jne rel8 => exact absurd rfl (hi rel8)
  | je rel8 | jl rel8 | jle rel8 | jb rel8 | jbe rel8 | jp rel8 | jo rel8 | js rel8 | jnl rel8 | jg rel8
  | jnb rel8 | ja rel8 | jnp rel8 | jno rel8 | jns rel8 | loop rel8 | loopz rel8 | loopnz rel8 | jcxz rel8 =>
    exact ⟨_, rfl, fun p => fallThroughBody_staged ..⟩

/-- `jne` raises `SeekFault`, is taken, or falls through (R183, R195). -/
theorem execJne_cases (rel8 : Byte) (s : State) :
    (jneTaken s = true ∧ jumpTarget s rel8 < 0 ∧
      exec (.jne rel8) s = raise (.seekFault s.ip (jumpTarget s rel8)) s) ∨
    (jneTaken s = true ∧ ¬ jumpTarget s rel8 < 0 ∧
      exec (.jne rel8) s = complete (.jne rel8) (takenBody (jumpTarget s rel8)) s) ∨
    (jneTaken s = false ∧ exec (.jne rel8) s = complete (.jne rel8) notTakenBody s) := by
  simp only [exec, execJne]
  cases ht : jneTaken s
  · exact .inr (.inr ⟨rfl, by simp⟩)
  · by_cases hn : jumpTarget s rel8 < 0
    · exact .inl ⟨rfl, hn, by simp [hn]⟩
    · exact .inr (.inl ⟨rfl, hn, by simp [hn]⟩)

/-- Everything that `exec` can answer: `jne`'s halt, a taken `jne`, a committed body that stages its writes, or the
decode-only commit. -/
theorem exec_next_cases {i : Instr} {s t : State} (h : exec i s = .next t) :
    (∃ rel8, i = .jne rel8 ∧ s.simulate = true ∧ s.flags.zf = false ∧ jumpTarget s rel8 < 0 ∧
      t = { s with status := .seekFault s.ip (jumpTarget s rel8) }) ∨
    (∃ rel8, i = .jne rel8 ∧ s.simulate = true ∧ s.flags.zf = false ∧ ¬ jumpTarget s rel8 < 0 ∧
      t = commitSim i s (takenBody (jumpTarget s rel8) (ipAfter s i.length) s)) ∨
    (∃ e : Executed, s.simulate = true ∧ (∀ rel8, i = .jne rel8 → s.flags.zf = true) ∧
      e.Staged s (ipAfter s i.length) ∧ t = commitSim i s e) ∨
    (s.simulate = false ∧ t = commitDecode i s) := by
  by_cases hi : ∃ rel8, i = .jne rel8
  · obtain ⟨rel8, rfl⟩ := hi
    rcases execJne_cases rel8 s with ⟨ht, hn, he⟩ | ⟨ht, hn, he⟩ | ⟨ht, he⟩
    · obtain ⟨hs, hz⟩ : s.simulate = true ∧ s.flags.zf = false := by simpa [jneTaken] using ht
      rw [he] at h
      exact .inl ⟨rel8, rfl, hs, hz, hn, (Host.Outcome.next.inj h).symm⟩
    · obtain ⟨hs, hz⟩ : s.simulate = true ∧ s.flags.zf = false := by simpa [jneTaken] using ht
      rw [he, complete_sim hs] at h
      exact .inr (.inl ⟨rel8, rfl, hs, hz, hn, (Host.Outcome.next.inj h).symm⟩)
    · rw [he] at h
      rcases complete_cases h with ⟨hs, rfl⟩ | hd
      · exact .inr (.inr (.inl ⟨_, hs, fun _ _ => by simpa [jneTaken, hs] using ht, notTakenBody_staged _ _, rfl⟩))
      · exact .inr (.inr (.inr hd))
  · obtain ⟨body, he, hb⟩ := exec_eq_complete (fun r hr => hi ⟨r, hr⟩) s
    rw [he] at h
    rcases complete_cases h with ⟨hs, rfl⟩ | hd
    · exact .inr (.inr (.inl ⟨_, hs, fun r hr => absurd ⟨r, hr⟩ hi, hb _, rfl⟩))
    · exact .inr (.inr (.inr hd))

/-! ## The cases of a step -/

/-- A step that answers a next state ran from `RUNNING`, and is one of the five outcomes of R220. -/
theorem step_cases {s t : State} (h : step s = .next t) :
    s.status = .running ∧
    ((decode (fetchBytes s) = .endOfStream ∧ t = endRun s) ∨
     (∃ b0, decode (fetchBytes s) = .unrecognised b0 ∧ t = skip b0 s) ∨
     (decode (fetchBytes s) = .truncated ∧ t = { s with status := .truncatedStream s.ip }) ∨
     (decode (fetchBytes s) = .unsupported ∧ t = { s with status := .unsupportedEncoding s.ip }) ∨
     (∃ i rest, decode (fetchBytes s) = .instr i rest ∧ exec i s = .next t)) := by
  simp only [step, instructionCycle] at h
  cases hs : s.status with
  | running =>
    refine ⟨rfl, ?_⟩
    simp only [hs] at h
    cases hd : decode (fetchBytes s) <;> simp_all [runDecoded, raise]
  | cleanEnd | truncatedStream | unsupportedEncoding | seekFault => simp [hs] at h

end Sys2Proof.Machine
end

