-- ==== Sys2Proof/Laws/Fields.lean ====
section
/-! SUPPORT. What the fetches of the decoder read, said by the bytes they stand for. -/

namespace Sys2Proof.Machine

/-- One sign-extended byte (R95). -/
theorem fetchSext_immediateAt {bytes rest : List Byte} {imm : Word} (h : fetchSext bytes = some (imm, rest)) :
    ImmediateAt false bytes rest imm := by
  match bytes, h with
  | v :: tail, h =>
    obtain ⟨rfl, rfl⟩ : sext16 v = imm ∧ tail = rest := by simpa [fetchSext, fetch8] using h
    exact ⟨v, rfl, rfl⟩

/-- Two bytes, the low one first (R71). -/
theorem fetch16_immediateAt {bytes rest : List Byte} {imm : Word} (h : fetch16 bytes = some (imm, rest)) :
    ImmediateAt true bytes rest imm := by
  match bytes, h with
  | lo :: hi :: tail, h =>
    obtain ⟨rfl, rfl⟩ : le16 lo hi = imm ∧ tail = rest := by simpa [fetch16] using h
    exact ⟨lo, hi, rfl, rfl⟩

/-- The immediate of `MOVI_REG`, `MOVI_RM` and `ACC_IMM` (R85, R89, R92). -/
theorem fetchImm_immediateAt {w : Width} {bytes rest : List Byte} {imm : Word}
    (h : fetchImm w bytes = some (imm, rest)) : ImmediateAt (w == .word) bytes rest imm := by
  cases w
  · exact fetchSext_immediateAt h
  · exact fetch16_immediateAt h

/-- The immediate of `IMM_RM` (R88). -/
theorem fetchImmRm_immediateAt {s : Bool} {w : Width} {bytes rest : List Byte} {imm : Word}
    (h : fetchImmRm s w bytes = some (imm, rest)) : ImmediateAt (!s && w == .word) bytes rest imm := by
  cases s <;> cases w
  · exact fetchSext_immediateAt h
  · exact fetch16_immediateAt h
  · exact fetchSext_immediateAt h
  · exact fetchSext_immediateAt h

/-- The operand of a ModRM byte (R75-R78). -/
theorem decodeOperand_operandAt {w : Width} {modrm : Byte} {bytes rest : List Byte} {rm : Rm}
    (h : decodeOperand (modField modrm) (rmField modrm) bytes = some (rm, rest)) :
    OperandAt w modrm bytes rest (rmOperand w rm) := by
  obtain ⟨hwf, hmod, hrm, rfl⟩ := decodeOperand_eq_some h
  have hm : modrm.extractLsb' 6 2 = rm.mod := hmod.symm
  have hr : modrm.extractLsb' 0 3 = rm.field := hrm.symm
  simp only [OperandAt, hm, hr]
  cases rm with
  | register i => exact .inl ⟨rfl, rfl, rfl⟩
  | directMemory a =>
    exact .inr (.inl ⟨rfl, rfl, loByte a, hiByte a, rfl,
      congrArg (fun v => Operand.memory (.directMemory v)) (le16_loByte_hiByte a).symm⟩)
  | indexedMemoryNoDisplacement base =>
    exact .inr (.inr (.inl ⟨rfl, by simpa [Rm.wf, Rm.field] using hwf, rfl, rfl⟩))
  | indexedMemory size base d =>
    cases size with
    | d8 =>
      exact .inr (.inr (.inr (.inl ⟨rfl, trunc8 d, rfl,
        congrArg (fun v => Operand.memory (.indexedMemory base v)) (sext16_trunc8 hwf).symm⟩)))
    | d16 =>
      exact .inr (.inr (.inr (.inr ⟨rfl, loByte d, hiByte d, rfl,
        congrArg (fun v => Operand.memory (.indexedMemory base v)) (le16_loByte_hiByte d).symm⟩)))

end Sys2Proof.Machine
end

