-- ==== Sys2Proof/Laws/PerInstr.lean ====
section
/-! SUPPORT. Statements for every instruction, one lemma for each constructor: an encoding has the length R102 gives. -/

namespace Sys2Proof

theorem Rm.dispBytes_length (rm : Rm) : rm.dispBytes.length = rm.extraBytes := by
  rcases rm with _ | _ | ⟨size, _, _⟩ | _
  · rfl
  · rfl
  · cases size <;> rfl
  · rfl

theorem immBytes_length (w : Width) (imm : Word) : (immBytes w imm).length = immSize w := by
  cases w <;> rfl

theorem immRmBytes_length (s : Bool) (w : Width) (imm : Word) : (immRmBytes s w imm).length = immRmSize s w := by
  cases s <;> cases w <;> rfl

theorem encodeRmReg_length (o : BitVec 6) (d : Dir) (w : Width) (rm : Rm) (reg : BitVec 3) :
    (encodeRmReg o d w rm reg).length = 2 + rm.extraBytes := by
  simp [encodeRmReg, modrmBytes, Rm.dispBytes_length]
  omega

theorem encodeImmRm_length (sub : BitVec 3) (s : Bool) (w : Width) (rm : Rm) (imm : Word) :
    (encodeImmRm sub s w rm imm).length = 2 + rm.extraBytes + immRmSize s w := by
  simp [encodeImmRm, modrmBytes, Rm.dispBytes_length, immRmBytes_length]
  omega

theorem encodeAccImm_length (o : BitVec 7) (w : Width) (imm : Word) :
    (encodeAccImm o w imm).length = 1 + immSize w := by
  simp [encodeAccImm, immBytes_length]
  omega

end Sys2Proof

namespace Sys2Proof.Laws.EncodedLength

/-- The encoder writes as many bytes as the length table of R102 says. -/
def Statement (i : Instr) : Prop := (encode i).length = i.length

theorem movRmReg (d : Dir) (w : Width) (rm : Rm) (reg : BitVec 3) : Statement (.movRmReg d w rm reg) :=
  encodeRmReg_length ..

theorem addRmReg (d : Dir) (w : Width) (rm : Rm) (reg : BitVec 3) : Statement (.addRmReg d w rm reg) :=
  encodeRmReg_length ..

theorem subRmReg (d : Dir) (w : Width) (rm : Rm) (reg : BitVec 3) : Statement (.subRmReg d w rm reg) :=
  encodeRmReg_length ..

theorem cmpRmReg (d : Dir) (w : Width) (rm : Rm) (reg : BitVec 3) : Statement (.cmpRmReg d w rm reg) :=
  encodeRmReg_length ..

theorem movImmReg (w : Width) (reg : BitVec 3) (imm : Word) : Statement (.movImmReg w reg imm) := by
  simp [Statement, encode, Instr.length, immBytes_length]
  omega

theorem movImmRm (w : Width) (rm : Rm) (imm : Word) : Statement (.movImmRm w rm imm) := by
  simp [Statement, encode, Instr.length, modrmBytes, Rm.dispBytes_length, immBytes_length]
  omega

theorem addImmRm (s : Bool) (w : Width) (rm : Rm) (imm : Word) : Statement (.addImmRm s w rm imm) :=
  encodeImmRm_length ..

theorem subImmRm (s : Bool) (w : Width) (rm : Rm) (imm : Word) : Statement (.subImmRm s w rm imm) :=
  encodeImmRm_length ..

theorem cmpImmRm (s : Bool) (w : Width) (rm : Rm) (imm : Word) : Statement (.cmpImmRm s w rm imm) :=
  encodeImmRm_length ..

theorem addImmAcc (w : Width) (imm : Word) : Statement (.addImmAcc w imm) :=
  encodeAccImm_length ..

theorem subImmAcc (w : Width) (imm : Word) : Statement (.subImmAcc w imm) :=
  encodeAccImm_length ..

theorem cmpImmAcc (w : Width) (imm : Word) : Statement (.cmpImmAcc w imm) :=
  encodeAccImm_length ..

theorem je (rel8 : Byte) : Statement (.je rel8) := rfl

theorem jl (rel8 : Byte) : Statement (.jl rel8) := rfl

theorem jle (rel8 : Byte) : Statement (.jle rel8) := rfl

theorem jb (rel8 : Byte) : Statement (.jb rel8) := rfl

theorem jbe (rel8 : Byte) : Statement (.jbe rel8) := rfl

theorem jp (rel8 : Byte) : Statement (.jp rel8) := rfl

theorem jo (rel8 : Byte) : Statement (.jo rel8) := rfl

theorem js (rel8 : Byte) : Statement (.js rel8) := rfl

theorem jne (rel8 : Byte) : Statement (.jne rel8) := rfl

theorem jnl (rel8 : Byte) : Statement (.jnl rel8) := rfl

theorem jg (rel8 : Byte) : Statement (.jg rel8) := rfl

theorem jnb (rel8 : Byte) : Statement (.jnb rel8) := rfl

theorem ja (rel8 : Byte) : Statement (.ja rel8) := rfl

theorem jnp (rel8 : Byte) : Statement (.jnp rel8) := rfl

theorem jno (rel8 : Byte) : Statement (.jno rel8) := rfl

theorem jns (rel8 : Byte) : Statement (.jns rel8) := rfl

theorem loop (rel8 : Byte) : Statement (.loop rel8) := rfl

theorem loopz (rel8 : Byte) : Statement (.loopz rel8) := rfl

theorem loopnz (rel8 : Byte) : Statement (.loopnz rel8) := rfl

theorem jcxz (rel8 : Byte) : Statement (.jcxz rel8) := rfl

end Sys2Proof.Laws.EncodedLength

namespace Sys2Proof

/-- The encoder writes `i.length` bytes (R102). -/
theorem encode_length (i : Instr) : (encode i).length = i.length := by
  cases i with
  | movRmReg => exact Laws.EncodedLength.movRmReg ..
  | addRmReg => exact Laws.EncodedLength.addRmReg ..
  | subRmReg => exact Laws.EncodedLength.subRmReg ..
  | cmpRmReg => exact Laws.EncodedLength.cmpRmReg ..
  | movImmReg => exact Laws.EncodedLength.movImmReg ..
  | movImmRm => exact Laws.EncodedLength.movImmRm ..
  | addImmRm => exact Laws.EncodedLength.addImmRm ..
  | subImmRm => exact Laws.EncodedLength.subImmRm ..
  | cmpImmRm => exact Laws.EncodedLength.cmpImmRm ..
  | addImmAcc => exact Laws.EncodedLength.addImmAcc ..
  | subImmAcc => exact Laws.EncodedLength.subImmAcc ..
  | cmpImmAcc => exact Laws.EncodedLength.cmpImmAcc ..
  | je | jl | jle | jb | jbe | jp | jo | js | jne | jnl
  | jg | jnb | ja | jnp | jno | jns | loop | loopz | loopnz | jcxz => rfl

end Sys2Proof
end

