-- ==== Sys2Proof/Tests/Slice0.lean ====
section
/-! SUPPORT. Small tests with results from the spec (95_test_vectors.md and the encoding tables), and a witness for the
hypotheses of each statement. -/

namespace Sys2Proof.Tests

open Sys2Proof Sys2Proof.Machine

/-! ## Well-formedness: each check refuses an ill-formed term -/

/-- R76: r/m = 110 with mod = 00 is a direct address. -/
theorem test_wf_no_displacement_110 : (Instr.movRmReg .toRm .word (.indexedMemoryNoDisplacement 6) 0).wf = false := by
  decide

/-- R77: an 8-bit displacement is sign-extended. -/
theorem test_wf_d8_displacement : (Instr.cmpRmReg .toReg .byte (.indexedMemory .d8 7 0x0080) 0).wf = false := by
  decide

/-- R85: a byte immediate is sign-extended from one byte. -/
theorem test_wf_byte_immediate : (Instr.movImmReg .byte 4 0x0080).wf = false := by decide

/-- R89: so is that of `MOVI_RM`, and its r/m operand is checked too. -/
theorem test_wf_movi_rm :
    (Instr.movImmRm .byte (.directMemory 0) 0x0100).wf = false ∧
    (Instr.movImmRm .word (.indexedMemoryNoDisplacement 6) 0).wf = false := by decide

/-- R88: an `IMM_RM` word immediate takes two bytes only for `s = 0`. -/
theorem test_wf_imm_rm :
    (Instr.addImmRm true .word (.register 1) 0x00FF).wf = false ∧
    (Instr.subImmRm false .byte (.register 1) 0x00FF).wf = false ∧
    (Instr.addImmRm false .word (.register 1) 0x00FF).wf = true := by decide

/-- R92: the accumulator forms. -/
theorem test_wf_acc_imm : (Instr.addImmAcc .byte 0xFF7F).wf = false ∧ (Instr.addImmAcc .byte 0xFF80).wf = true := by
  decide

/-! ## Decoding: words written bit by bit from the encoding tables (30_encoding.md Tables 30-1, 30-3, R75-R95) -/

/-- `RM_REG`: `oooooo d w`, ModRM `mod reg r/m` (R90); the operations 100010, 000000, 001010, 001110. -/
theorem test_decode_mov_rm_reg :
    decode [0b100010_0_1, 0b11_011_000] = .instr (.movRmReg .toRm .word (.register 0) 3) [] ∧
    decode [0b100010_1_0, 0b00_100_110, 0x0A, 0x01] = .instr (.movRmReg .toReg .byte (.directMemory 0x010A) 4) [] := by
  decide
theorem test_decode_add_rm_reg :
    decode [0b000000_0_0, 0b01_111_010, 0x80] = .instr (.addRmReg .toRm .byte (.indexedMemory .d8 2 0xFF80) 7) [] := by
  decide
theorem test_decode_sub_rm_reg :
    decode [0b001010_1_1, 0b10_001_110, 0x34, 0x12, 0x90] =
      .instr (.subRmReg .toReg .word (.indexedMemory .d16 6 0x1234) 1) [0x90] := by decide
theorem test_decode_cmp_rm_reg :
    decode [0b001110_1_1, 0b00_010_101] = .instr (.cmpRmReg .toReg .word (.indexedMemoryNoDisplacement 5) 2) [] := by
  decide

/-- `MOVI_REG`: `1011 w reg` (R85). -/
theorem test_decode_mov_imm_reg :
    decode [0b1011_0_100, 0x80] = .instr (.movImmReg .byte 4 0xFF80) [] ∧
    decode [0b1011_1_110, 0x00, 0x80] = .instr (.movImmReg .word 6 0x8000) [] := by decide

/-- `MOVI_RM`: `1100011 w`, reg field 000; displacement before immediate (R89). -/
theorem test_decode_mov_imm_rm :
    decode [0b1100011_1, 0b00_000_110, 0xE8, 0x03, 0x34, 0x12] = .instr (.movImmRm .word (.directMemory 1000) 0x1234) [] := by
  decide

/-- `IMM_RM`: `100000 s w`, secondary field 000, 101, 111 (R86-R88). -/
theorem test_decode_imm_rm :
    decode [0b100000_1_1, 0b11_000_001, 0xFF] = .instr (.addImmRm true .word (.register 1) 0xFFFF) [] ∧
    decode [0b100000_0_1, 0b11_101_110, 0xFF, 0x00] = .instr (.subImmRm false .word (.register 6) 0x00FF) [] ∧
    decode [0b100000_0_0, 0b00_111_111, 0x05] = .instr (.cmpImmRm false .byte (.indexedMemoryNoDisplacement 7) 5) [] := by
  decide

/-- `ACC_IMM`: `0000010 w`, `0010110 w`, `0011110 w` (R92). -/
theorem test_decode_acc_imm :
    decode [0b0000010_0, 0x80] = .instr (.addImmAcc .byte 0xFF80) [] ∧
    decode [0b0010110_1, 0x01, 0x02] = .instr (.subImmAcc .word 0x0201) [] ∧
    decode [0b0011110_1, 0x01, 0x00] = .instr (.cmpImmAcc .word 1) [] := by decide

/-- `JCC`: the first ten rows of Table 30-3 (R94). -/
theorem test_decode_jcc_first :
    [0b01110100, 0b01111100, 0b01111110, 0b01110010, 0b01110110, 0b01111010, 0b01110000, 0b01111000, 0b01110101,
      0b01111101].map (fun b => decode [b, 0xFE]) =
    [Instr.je 0xFE, .jl 0xFE, .jle 0xFE, .jb 0xFE, .jbe 0xFE, .jp 0xFE, .jo 0xFE, .js 0xFE, .jne 0xFE,
      .jnl 0xFE].map (fun i => .instr i []) := by decide

/-- `JCC`: the other ten rows of Table 30-3 (R94). -/
theorem test_decode_jcc_last :
    [0b01111111, 0b01110011, 0b01110111, 0b01111011, 0b01110001, 0b01111001, 0b11100010, 0b11100001, 0b11100000,
      0b11100011].map (fun b => decode [b, 0x05]) =
    [Instr.jg 0x05, .jnb 0x05, .ja 0x05, .jnp 0x05, .jno 0x05, .jns 0x05, .loop 0x05, .loopz 0x05, .loopnz 0x05,
      .jcxz 0x05].map (fun i => .instr i []) := by decide

/-- V56-V59, V53: a missing byte (R72). -/
theorem test_decode_truncated :
    [[0x89], [0x8B, 0x06, 0xE8], [0xC7, 0x06, 0xE8, 0x03, 0x34], [0x83, 0xC1], [0x75]].map decode =
    [Decoded.truncated, .truncated, .truncated, .truncated, .truncated] := by decide

/-- V19, V20, V60, V61: a secondary field outside the subset, checked before the bytes after ModRM (R99). -/
theorem test_decode_unsupported :
    [[0xC6, 0x48, 0x05, 0xAA], [0xC6, 0x08, 0x07], [0x83, 0xC8, 0x01], [0x80, 0x08]].map decode =
    [Decoded.unsupported, .unsupported, .unsupported, .unsupported] := by decide

/-- V54, V55, P4, and the end of the stream (R83, R111). -/
theorem test_decode_unrecognised :
    [[0x0F], [0xF4, 0x01], [0x2E, 0x89], [0x90], []].map decode =
    [Decoded.unrecognised 0x0F, .unrecognised 0xF4, .unrecognised 0x2E, .unrecognised 0x90, .endOfStream] := by decide

/-- The host's bit numbering: byte 0 is bits 7:0. -/
theorem test_decode_table_word :
    decodeTableWord 16 0xC101 = some (.addRmReg .toRm .word (.register 1) 0) ∧ decodeTableWord 8 0x0F = none := by decide

/-! ## Steps on the vectors of 95_test_vectors.md -/

/-- The defaults of Table 00-1, with 16, 4 and 7 for the OPEN costs T, N and O. -/
def demoParams : Params :=
  { defaultParams with cycJneTaken := 16, cycJneNotTaken := 4, cycJccOther := 7 }

/-- A run at its start, with the registers AX, CX, DX, BX, SP, BP, SI, DI, ZF and memory that the vector names. -/
def demo (code : List Byte) (regs : Vector Word 8) (zf : Bool) (mem : Memory) : State :=
  { State.launch { code := code, simulate := true, params := demoParams, resetRegs := regs } with
    flags := ⟨zf, false⟩, mem := mem }

/-- All registers zero. -/
def zeros : Vector Word 8 := #v[0, 0, 0, 0, 0, 0, 0, 0]

/-- The same run in decode-only mode. -/
def decodeOnly (s : State) : State := { s with simulate := false }

/-- The step answers a next state with property `p`. -/
def stepsTo (s : State) (p : State → Bool) : Bool :=
  match step s with
  | .next t => p t
  | .fault _ => false
  | .refused _ => false

/-- The new value of the record the step emitted last. -/
def lastNewValue (t : State) : Option Value :=
  match t.trace.getLast? with
  | some (.simRecord r) => r.newValue
  | _ => none

/-- V8. -/
theorem test_mov_al_ah : stepsTo (demo [0x88, 0xE0] #v[0xAB00, 0, 0, 0, 0, 0, 0, 0] false [])
    (fun t => wordReg t 0 == 0xABAB && t.flags == ⟨false, true⟩ && t.cyc == 2) = true := by decide

/-- V10. -/
theorem test_mov_ax_mem : stepsTo (demo [0x8B, 0x47, 0xFE] #v[0, 0, 0, 0x03EA, 0, 0, 0, 0] false [(1000, 0x85)])
    (fun t => wordReg t 0 == 0x0085 && t.cyc == 17 && t.ip == 3) = true := by decide

/-- V1: a byte register write keeps the other half. -/
theorem test_mov_ah_imm : stepsTo (demo [0xB4, 0x80] #v[0x1234, 0, 0, 0, 0, 0, 0, 0] false [])
    (fun t => wordReg t 0 == 0x8034 && t.flags == ⟨false, true⟩ && t.cyc == 4) = true := by decide

/-- S5. -/
theorem test_mov_si_imm : stepsTo (demo [0xBE, 0x00, 0x80] (Vector.replicate 8 0x1111) false [])
    (fun t => t.regs == #v[0x1111, 0x1111, 0x1111, 0x1111, 0x1111, 0x1111, 0x8000, 0x1111]) = true := by decide

/-- V17, with ZF set before it: a store does not touch the flags, and only the low byte is stored. -/
theorem test_mov_mem_imm : stepsTo (demo [0xC7, 0x06, 0xE8, 0x03, 0x34, 0x12] zeros true [])
    (fun t => t.mem == [(1000, 0x34)] && t.flags == ⟨true, false⟩ && t.cyc == 16) = true := by decide

/-- V18. -/
theorem test_mov_rm_imm_register : stepsTo (demo [0xC7, 0xC0, 0x34, 0x12] zeros false [])
    (fun t => wordReg t 0 == 0x1234 && t.cyc == 4) = true := by decide

/-- V22: the byte sum wraps and AL stays. -/
theorem test_add_ah_ah : stepsTo (demo [0x00, 0xE4] #v[0x8080, 0, 0, 0, 0, 0, 0, 0] false [])
    (fun t => wordReg t 0 == 0x0080 && t.flags == ⟨true, false⟩) = true := by decide

/-- V24: the flags come from the full-width result 0100, 00 is stored, and the record reads it back. -/
theorem test_add_mem_ax : stepsTo (demo [0x01, 0x07] #v[1, 0, 0, 0x03E8, 0, 0, 0, 0] false [(1000, 0xFF)])
    (fun t => t.mem == [] && t.flags == ⟨false, false⟩ && t.cyc == 21 && lastNewValue t == some (.u16 0)) = true := by
  decide

/-- V26. -/
theorem test_add_cx_minus_one : stepsTo (demo [0x83, 0xC1, 0xFF] zeros false [])
    (fun t => wordReg t 1 == 0xFFFF && t.flags == ⟨false, true⟩ && t.cyc == 4) = true := by decide

/-- V30. -/
theorem test_add_mem_imm : stepsTo (demo [0x83, 0x06, 0xE8, 0x03, 0x05] zeros false [(1000, 0xFE)])
    (fun t => t.mem == [(1000, 0x03)] && t.flags == ⟨false, false⟩ && t.cyc == 23) = true := by decide

/-- V31. -/
theorem test_add_al_imm : stepsTo (demo [0x04, 0x80] #v[0x1280, 0, 0, 0, 0, 0, 0, 0] false [])
    (fun t => wordReg t 0 == 0x1200 && t.flags == ⟨true, false⟩) = true := by decide

/-- V35. -/
theorem test_sub_ah_al : stepsTo (demo [0x28, 0xC4] #v[0x0102, 0, 0, 0, 0, 0, 0, 0] false [])
    (fun t => wordReg t 0 == 0xFF02 && t.flags == ⟨false, true⟩) = true := by decide

/-- V38. -/
theorem test_sub_mem_ax : stepsTo (demo [0x29, 0x06, 0xE8, 0x03] #v[1, 0, 0, 0, 0, 0, 0, 0] false [])
    (fun t => t.mem == [(1000, 0xFF)] && t.cyc == 22 && lastNewValue t == some (.u16 0x00FF)) = true := by decide

/-- V37. -/
theorem test_sub_si_imm : stepsTo (demo [0x83, 0xEE, 0x01] zeros false [])
    (fun t => wordReg t 6 == 0xFFFF && t.flags == ⟨false, true⟩) = true := by decide

/-- V40: signed overflow is not flagged. -/
theorem test_sub_ax_imm : stepsTo (demo [0x2D, 0x01, 0x00] #v[0x8000, 0, 0, 0, 0, 0, 0, 0] false [])
    (fun t => wordReg t 0 == 0x7FFF && t.flags == ⟨false, false⟩ && t.cyc == 4) = true := by decide

/-- V41. -/
theorem test_cmp_ax_bx : stepsTo (demo [0x39, 0xD8] #v[3, 0, 0, 5, 0, 0, 0, 0] false [])
    (fun t => t.regs == #v[3, 0, 0, 5, 0, 0, 0, 0] && t.flags == ⟨false, true⟩ && t.cyc == 3) = true := by decide

/-- V44. -/
theorem test_cmp_mem_imm : stepsTo (demo [0x80, 0x3F, 0x00] #v[0, 0, 0, 5, 0, 0, 0, 0] false [])
    (fun t => t.mem == [] && t.flags == ⟨true, false⟩ && t.cyc == 15) = true := by decide

/-- V45. -/
theorem test_cmp_ax_imm : stepsTo (demo [0x3D, 0x01, 0x00] zeros false [])
    (fun t => t.regs == zeros && t.flags == ⟨false, true⟩ && t.cyc == 4) = true := by decide

/-- S4: a taken `jne` to itself, and one that is not taken. -/
theorem test_jne_minus_two :
    stepsTo (demo [0x75, 0xFE] zeros false []) (fun t => t.ip == 0 && t.cyc == 16) = true ∧
    stepsTo (demo [0x75, 0xFE] zeros true []) (fun t => t.ip == 2 && t.cyc == 4) = true := by decide

/-- V47 and V48: below the stream, and past its end. -/
theorem test_jne_out_of_stream :
    stepsTo (demo [0x75, 0x80] zeros false []) (fun t => t.status == .seekFault 0 (-126) && t.ip == 0 && t.cyc == 0) = true ∧
    stepsTo (demo [0x75, 0x7F] zeros false []) (fun t => t.status == .running && t.ip == 129) = true := by decide

/-- The table after V53: each of the 19 other transfers, at position 10. -/
theorem test_other_transfers :
    ([0x74, 0x7C, 0x7E, 0x72, 0x76, 0x7A, 0x70, 0x78, 0x7D, 0x7F, 0x73, 0x77, 0x7B, 0x71, 0x79, 0xE2, 0xE1, 0xE0,
      0xE3].all fun op =>
      stepsTo { demo (List.replicate 10 0x90 ++ [op, 0xFE]) #v[0, 3, 0, 0, 0, 0, 0, 0] false [] with ip := 10 }
        (fun t => t.ip == 12 && wordReg t 1 == 3 && t.flags == ⟨false, false⟩ && t.cyc == 7)) = true := by decide

/-- V54: the first skip. -/
theorem test_skip : stepsTo (demo [0x0F, 0xF4] zeros false [])
    (fun t => t.unrec == 1 && t.ip == 1 && t.cyc == 0 && t.trace == [.unrecognised 0 0x0F 1]) = true := by decide

/-- V58 and V61: the halts. -/
theorem test_halts :
    stepsTo (demo [0xC7, 0x06, 0xE8, 0x03, 0x34] zeros false [])
      (fun t => t.status == .truncatedStream 0 && t.mem == [] && t.trace == []) = true ∧
    stepsTo (demo [0x80, 0x08] zeros false []) (fun t => t.status == .unsupportedEncoding 0) = true := by decide

/-- V62: the empty program. -/
theorem test_empty_program : stepsTo (demo [] zeros false [])
    (fun t => t.status == .cleanEnd && t.trace == [.finalReport zeros 0 ⟨false, false, ""⟩]) = true := by decide

/-- V63: `jne` is not followed in decode-only mode. -/
theorem test_decode_only_jne : stepsTo (decodeOnly (demo [0x75, 0xF8] zeros false []))
    (fun t => t.ip == 2 && t.cyc == 0) = true := by decide

/-- The instruction the host places is the one the first step after reset runs. -/
theorem test_fetch_word_at_reset : stepsTo (State.reset.withFetchWord 24 0x0005B8)
    (fun t => wordReg t 0 == 5 && t.ip == 3) = true := by decide

/-! ## Witnesses: each statement's hypotheses are met together -/

/-- The address 0xFFFF and a listed byte, in canonical form. -/
def demoMem : Memory := [(1000, 0x85), (65535, 0x01)]

/-- A running simulation with memory listed. -/
def demoSim : State := demo [0x01, 0xC1] #v[1, 2, 3, 4, 5, 6, 7, 8] false demoMem

theorem witness_ByteRegistersAliasSlotHalves :
    ((3 : BitVec 3).toNat < 4 ∧ (0 : BitVec 3) ≠ 3) ∧ (4 ≤ (4 : BitVec 3).toNat ∧ (4 : BitVec 3) ≠ 4 - 4) := by decide

theorem witness_WordRegisterWriteIsLocal : (0 : BitVec 3) ≠ 7 := by decide

theorem witness_MemoryWriteChangesOneByte : demoSim.mem.wf = true ∧ (0 : Word) ≠ 0xFFFF := by decide

theorem witness_CanonicalMemoriesThatReadAlikeAreEqual :
    Memory.wf demoMem = true ∧ Memory.wf (Memory.set [(65535, 0x01)] 1000 0x85) = true ∧
    ∀ a, a < 65536 → Memory.get demoMem a = Memory.get (Memory.set [(65535, 0x01)] 1000 0x85) a :=
  ⟨by decide, by decide, fun _ _ => rfl⟩

theorem witness_WriteOperandStoresByForm : demoSim.mem.wf = true := by decide

theorem witness_MemoryReadExtendsOneByte :
    demoSim.params.memReadExt = .zero ∧
    { demoSim with params := { demoParams with memReadExt := .sign } }.params.memReadExt = .sign := by decide

theorem witness_ModFieldSelectsOperand : (0b111#3) ≠ 0b110#3 := by decide

theorem witness_DecodeInvertsEncode :
    (Instr.movImmRm .byte (.indexedMemory .d8 6 0xFF80) 0x007F).wf = true ∧
    (Instr.cmpImmRm false .word (.indexedMemory .d16 0 0x8000) 0xFFFF).wf = true ∧
    (Instr.subImmAcc .byte 0xFF80).wf = true := by decide

theorem witness_EncodeInvertsDecode :
    decode [0xC7, 0x86, 0x10, 0x00, 0x34, 0x12, 0x90] = .instr (.movImmRm .word (.indexedMemory .d16 6 16) 0x1234) [0x90] := by
  decide

/-- Cut after the first byte, and before the last one. -/
theorem witness_TruncatedInstructionHalts :
    let i : Instr := .movImmRm .word (.directMemory 1000) 0x1234
    i.wf = true ∧ 5 < i.length ∧
    (demo [0xC7] zeros false []).status = .running ∧ fetchBytes (demo [0xC7] zeros false []) = (encode i).take 1 ∧
    fetchBytes (demo [0xC7, 0x06, 0xE8, 0x03, 0x34] zeros false []) = (encode i).take 5 := by decide

theorem witness_UnsupportedSecondaryFieldHalts :
    (demo [0x80, 0x08] zeros false []).status = .running ∧
    fetchBytes (demo [0x80, 0x08] zeros false []) = [0x80, 0x08] ∧
    ((0x08#8).extractLsb' 3 3 ≠ 0b000#3 ∧ (0x08#8).extractLsb' 3 3 ≠ 0b101#3 ∧ (0x08#8).extractLsb' 3 3 ≠ 0b111#3) ∧
    fetchBytes (demo [0xC7, 0x38, 0x05] zeros false []) = [0xC7, 0x38, 0x05] ∧ (0x38#8).extractLsb' 3 3 ≠ 0b000#3 := by
  decide

/-- The bytes at the edges of the recognised ranges. -/
theorem witness_UnrecognisedByteIsSkippedAlone :
    ([0x06, 0x27, 0x2E, 0x37, 0x3E, 0x6F, 0x84, 0x87, 0x8C, 0xAF, 0xC0, 0xC5, 0xC8, 0xDF, 0xE4, 0xFF].all
      fun b => recognisedByte b == false) = true ∧
    ([0x00, 0x05, 0x28, 0x2D, 0x38, 0x3D, 0x70, 0x83, 0x88, 0x8B, 0xB0, 0xBF, 0xC6, 0xC7, 0xE0, 0xE3].all
      recognisedByte) = true ∧
    (demo [0x2E, 0x89] zeros false []).status = .running ∧
    fetchBytes (demo [0x2E, 0x89] zeros false []) = [0x2E, 0x89] := by decide

theorem witness_StepRunsDecodedInstruction :
    demoSim.status = .running ∧
    decode (fetchBytes demoSim) = .instr (.addRmReg .toRm .word (.register 1) 0) [] := by decide

theorem witness_StepRunsEncodedInstructionAtIp :
    let s : State := { demo [0x90, 0x90, 0xB8, 0x05, 0x00, 0x75] zeros false [] with ip := 2 }
    let i : Instr := .movImmReg .word 0 5
    s.status = .running ∧ i.wf = true ∧ s.code = [0x90, 0x90] ++ encode i ++ [0x75] ∧ s.ip.toNat = 2 ∧ s.CodeFits ∧
    ∀ rel8, i ≠ .jne rel8 :=
  ⟨by decide, by decide, by decide, by decide, by simp [State.CodeFits, demo, State.launch], by simp⟩

/-- At the end of the stream and past it, in both modes. -/
theorem witness_StreamEndIsCleanEnd :
    let s : State := { demo [0x75, 0x7F] zeros false [] with ip := 129 }
    s.status = .running ∧ s.code.length ≤ s.ip.toNat ∧ s.simulate = true ∧
    (demo [] zeros false []).code.length ≤ (demo [] zeros false []).ip.toNat ∧
    (decodeOnly s).simulate = false ∧ (decodeOnly s).code.length ≤ (decodeOnly s).ip.toNat := by decide

/-- A core whose run has ended. -/
def demoEnded : State := { demoSim with status := .truncatedStream 0 }

theorem witness_NoStepOnceEnded : demoEnded.status ≠ .running := by decide

theorem witness_StepOfEndedCoreFaults : demoEnded.status ≠ .running := by decide

/-- One step to each fatal halt. -/
theorem witness_FatalHaltCommitsNothing :
    ([demo [0x89] zeros false [], demo [0x80, 0x08] zeros false [], demo [0x75, 0xFD] zeros false []].all fun s =>
      stepsTo s fun t => t.status != .running && t.status != .cleanEnd) = true := by decide

theorem witness_DecodeOnlyModeOnlyAdvances : (decodeOnly demoSim).simulate = false := by decide

theorem witness_DecodeOnlyStepsMakeProgress :
    (decodeOnly demoSim).simulate = false ∧ (decodeOnly demoSim).CodeFits ∧
    ∃ t, step (decodeOnly demoSim) = .next t :=
  ⟨rfl, by simp [State.CodeFits, decodeOnly, demoSim, demo, State.launch], _, rfl⟩

theorem witness_RunInputsNeverChange : ∃ t, step demoSim = .next t := ⟨_, rfl⟩

/-- One step of each kind that goes on: a skip, a taken and a fallen-through `jne`, another instruction. -/
theorem witness_IpAdvancesAsTheStepDecodes :
    demoSim.CodeFits ∧
    stepsTo demoSim (fun t => t.status == .running) = true ∧
    stepsTo (demo [0x90] zeros false []) (fun t => t.status == .running) = true ∧
    stepsTo (demo [0x75, 0xFE] zeros false []) (fun t => t.status == .running) = true ∧
    stepsTo (demo [0x75, 0xFE] zeros true []) (fun t => t.status == .running) = true :=
  ⟨by simp [State.CodeFits, demoSim, demo, State.launch], by decide, by decide, by decide, by decide⟩

theorem witness_StepKeepsMachineInvariant : demoSim.Inv ∧ ∃ t, step demoSim = .next t :=
  ⟨⟨by decide, by simp [State.CodeFits, demoSim, demo, State.launch], by decide⟩, _, rfl⟩

theorem witness_LaunchMeetsInvariants : defaultLaunch.code.length + 128 ≤ 2 ^ 32 := by simp [defaultLaunch]

theorem witness_StepKeepsCountersEqualToTrace : demoSim.CountersMatchTrace ∧ ∃ t, step demoSim = .next t :=
  ⟨⟨by decide, by decide⟩, _, rfl⟩

theorem witness_TraceGrowsByAtMostOneRecord : ∃ t, step demoSim = .next t := ⟨_, rfl⟩

/-- In both modes. -/
theorem witness_EmptyProgramEndsAtOnce :
    defaultLaunch.code = [] ∧ defaultLaunch.simulate = true ∧
    { defaultLaunch with simulate := false }.code = [] ∧ { defaultLaunch with simulate := false }.simulate = false := by
  decide

theorem witness_MovRmRegEffect : demoSim.simulate = true ∧ demoSim.mem.wf = true := by decide

theorem witness_MovImmRegEffect : demoSim.simulate = true := rfl

theorem witness_MovImmRmEffect : demoSim.simulate = true ∧ demoSim.mem.wf = true := by decide

theorem witness_MovWordImmediateSetsOneSlot :
    let s := demo [0xBE, 0x00, 0x80, 0x90] zeros false []
    s.simulate = true ∧ s.status = .running ∧
    fetchBytes s = (0b10111#5 ++ 6#3 : BitVec 8) :: 0x00 :: 0x80 :: [0x90] ∧ (5 : BitVec 3) ≠ 6 := by decide

theorem witness_AddEffect : demoSim.simulate = true ∧ demoSim.mem.wf = true := by decide

theorem witness_SubEffect : demoSim.simulate = true ∧ demoSim.mem.wf = true := by decide

theorem witness_CmpEffect : demoSim.simulate = true := rfl

theorem witness_CmpNeverMutates :
    (∃ d w rm reg, Instr.cmpRmReg .toRm .word (.directMemory 0) 0 = .cmpRmReg d w rm reg) ∧
    (∃ sx w rm imm, Instr.cmpImmRm true .word (.register 0) 1 = .cmpImmRm sx w rm imm) ∧
    (∃ w imm, Instr.cmpImmAcc .byte 1 = .cmpImmAcc w imm) :=
  ⟨⟨_, _, _, _, rfl⟩, ⟨_, _, _, _, rfl⟩, ⟨_, _, rfl⟩⟩

theorem witness_WordFlagLaw :
    demoSim.simulate = true ∧ rmRegDst .toReg .word (.directMemory 5) 3 = .register .word 3 := ⟨rfl, rfl⟩

theorem witness_OtherTransfersOnlyAdvance :
    Instr.je 0x80 ∈ otherTransfers 0x80 ∧ Instr.jcxz 0xFE ∈ otherTransfers 0xFE ∧ demoSim.simulate = true := by decide

/-- The lowest and the highest target that `IP` can hold. -/
theorem witness_JneJumpsWhenZeroFlagIsClear :
    demoSim.simulate = true ∧ demoSim.flags.zf = false ∧
    ((0 : Pos).toNat : Int) + 2 + (0xFE#8).toInt = 0 ∧
    ((0xFFFFFFFD : Pos).toNat : Int) + 2 + (0x00#8).toInt = 2 ^ 32 - 1 := by decide

theorem witness_JneFallsThroughWhenZeroFlagIsSet :
    (demo [] zeros true []).simulate = true ∧ (demo [] zeros true []).flags.zf = true := by decide

/-- The target -1. -/
theorem witness_JneBelowStreamStartHalts :
    demoSim.simulate = true ∧ demoSim.flags.zf = false ∧ (demoSim.ip.toNat : Int) + 2 + (0xFD#8).toInt < 0 := by decide

theorem witness_OnlyJneRedirects :
    demoSim.simulate = true ∧
    (∃ t, exec (.jne 0x10) demoSim = .next t ∧ t.ip ≠ demoSim.ip + BitVec.ofNat 32 (Instr.jne 0x10).length) ∧
    (∀ rel8, Instr.je 0x10 ≠ .jne rel8) :=
  ⟨rfl, ⟨_, rfl, by decide⟩, by simp⟩

theorem witness_OnlyJneReadsFlags : ∀ rel8, Instr.movImmReg .word 0 0 ≠ .jne rel8 := by simp

theorem witness_ExecutedInstructionEmitsItsRecord :
    demoSim.simulate = true ∧ demoSim.status = .running ∧
    ∃ t, exec (.jne 0x10) demoSim = .next t ∧ t.status = .running := ⟨rfl, rfl, _, rfl, rfl⟩

/-- A record with a destination, one of a `cmp`, and one without. -/
theorem witness_RecordedValuesAreTheDestination :
    demoSim.simulate = true ∧
    (∃ t r, exec (.addRmReg .toRm .word (.directMemory 1000) 0) demoSim = .next t ∧
      t.trace = demoSim.trace ++ [.simRecord r]) ∧
    (∃ t r, exec (.cmpImmAcc .byte 1) demoSim = .next t ∧ t.trace = demoSim.trace ++ [.simRecord r]) ∧
    (∃ t r, exec (.jne 0x10) demoSim = .next t ∧ t.trace = demoSim.trace ++ [.simRecord r]) :=
  ⟨rfl, ⟨_, _, rfl, rfl⟩, ⟨_, _, rfl, rfl⟩, ⟨_, _, rfl, rfl⟩⟩

/-- A word of each family, and the condition of its clause on the opcode byte. -/
theorem witness_DecodedFieldsOfEachFamily :
    (decode [0xB4, 0x80] = .instr (.movImmReg .byte 4 0xFF80) [] ∧ (0xB4#8).extractLsb' 4 4 = 0b1011#4) ∧
    (decode [0xC6, 0x47, 0xFE, 0x80] = .instr (.movImmRm .byte (.indexedMemory .d8 7 0xFFFE) 0xFF80) [] ∧
      (0xC6#8).extractLsb' 1 7 = 0b1100011#7) ∧
    (decode [0x81, 0x3E, 0xE8, 0x03, 0xFF, 0x00] = .instr (.cmpImmRm false .word (.directMemory 1000) 0x00FF) [] ∧
      (0x81#8).extractLsb' 2 6 = 0b100000#6) ∧
    (decode [0x2B, 0xC3, 0x90] = .instr (.subRmReg .toReg .word (.register 3) 0) [0x90] ∧
      ((0x2B#8).extractLsb' 2 6, Mnemonic.sub) ∈
        [(0b100010#6, Mnemonic.mov), (0b000000#6, .add), (0b001010#6, .sub), (0b001110#6, .cmp)]) ∧
    (decode [0x3D, 0x01, 0x00] = .instr (.cmpImmAcc .word 1) [] ∧
      ((0x3D#8).extractLsb' 1 7, Mnemonic.cmp) ∈
        [(0b0000010#7, Mnemonic.add), (0b0010110#7, .sub), (0b0011110#7, .cmp)]) ∧
    (decode [0xE3, 0xFE] = .instr (.jcxz 0xFE) [] ∧ (0xE3, .jcxz) ∈ transferBytes) := by decide

end Sys2Proof.Tests
end

section
/-! PROOFS. What the decoder reads is the encoding of what it answers, and stands inside the code stream. -/

namespace Sys2Proof

/-! ## The encoder, family by family -/

theorem encode_ofCond (c : Cond) (rel8 : Byte) : encode (.ofCond c rel8) = encodeJcc c rel8 := by
  cases c <;> rfl

theorem wf_ofCond (c : Cond) (rel8 : Byte) : (Instr.ofCond c rel8).wf = true := by
  cases c <;> rfl

theorem encode_ofAccImm (op : AluOp) (w : Width) (imm : Word) :
    encode (.ofAccImm op w imm) = encodeAccImm op.accOpcode w imm := by
  cases op <;> rfl

theorem wf_ofAccImm (op : AluOp) (w : Width) (imm : Word) : (Instr.ofAccImm op w imm).wf = immWf w imm := by
  cases op <;> rfl

theorem encode_ofRmReg (op : RmRegOp) (d : Dir) (w : Width) (rm : Rm) (reg : BitVec 3) :
    encode (.ofRmReg op d w rm reg) = encodeRmReg op.opcode d w rm reg := by
  rcases op with _ | (_ | _ | _) <;> rfl

theorem wf_ofRmReg (op : RmRegOp) (d : Dir) (w : Width) (rm : Rm) (reg : BitVec 3) :
    (Instr.ofRmReg op d w rm reg).wf = rm.wf := by
  rcases op with _ | (_ | _ | _) <;> rfl

theorem encode_ofImmRm (op : AluOp) (s : Bool) (w : Width) (rm : Rm) (imm : Word) :
    encode (.ofImmRm op s w rm imm) = encodeImmRm op.subOpcode s w rm imm := by
  cases op <;> rfl

theorem wf_ofImmRm (op : AluOp) (s : Bool) (w : Width) (rm : Rm) (imm : Word) :
    (Instr.ofImmRm op s w rm imm).wf = (rm.wf && immRmWf s w imm) := by
  cases op <;> rfl

/-- The s bit of an `IMM_RM` opcode byte, read as a truth value, gives the bit back (R88). -/
theorem ofBool_sBit : ∀ b : Byte, BitVec.ofBool (sBit b) = bit1 b := by
  decide

/-- The operand decoded from a ModRM byte encodes to that byte and the displacement that followed it (R74, R79). -/
theorem modrmBytes_of_decodeOperand {modrm : Byte} {bytes rest : List Byte} {rm : Rm}
    (h : decodeOperand (modField modrm) (rmField modrm) bytes = some (rm, rest)) :
    rm.wf = true ∧ modrmBytes (regField modrm) rm ++ rest = modrm :: bytes := by
  obtain ⟨hwf, hmod, hfield, rfl⟩ := decodeOperand_eq_some h
  exact ⟨hwf, by simp [modrmBytes, hmod, hfield, modrm_eta]⟩

/-! ## Each family's decode -/

theorem decodeJcc_eq_instr {c : Cond} {bytes rest : List Byte} {i : Instr}
    (h : decodeJcc c bytes = .instr i rest) : i.wf = true ∧ encode i ++ rest = c.byte :: bytes := by
  match bytes, h with
  | rel8 :: tail, h =>
    obtain ⟨rfl, rfl⟩ : Instr.ofCond c rel8 = i ∧ tail = rest := by simpa [decodeJcc, fetch8] using h
    exact ⟨wf_ofCond c rel8, by simp [encode_ofCond, encodeJcc]⟩

theorem decodeMoviReg_eq_instr {b0 : Byte} {bytes rest : List Byte} {i : Instr}
    (h : decodeMoviReg b0 bytes = .instr i rest) :
    i.wf = true ∧ encode i ++ rest = (0b1011#4 ++ bit3 b0 ++ rmField b0) :: bytes := by
  unfold decodeMoviReg at h
  split at h
  · cases h
  next imm tail himm =>
    cases h
    obtain ⟨rfl, hwf⟩ := fetchImm_eq_some himm
    exact ⟨hwf, by simp [encode]⟩

theorem decodeAccImm_eq_instr {op : AluOp} {b0 : Byte} {bytes rest : List Byte} {i : Instr}
    (h : decodeAccImm op b0 bytes = .instr i rest) :
    i.wf = true ∧ encode i ++ rest = (op.accOpcode ++ bit0 b0) :: bytes := by
  unfold decodeAccImm at h
  split at h
  · cases h
  next imm tail himm =>
    cases h
    obtain ⟨rfl, hwf⟩ := fetchImm_eq_some himm
    exact ⟨(wf_ofAccImm ..).trans hwf, by simp [encode_ofAccImm, encodeAccImm]⟩

theorem decodeRmReg_eq_instr {op : RmRegOp} {b0 : Byte} {bytes rest : List Byte} {i : Instr}
    (h : decodeRmReg op b0 bytes = .instr i rest) :
    i.wf = true ∧ encode i ++ rest = (op.opcode ++ bit1 b0 ++ bit0 b0) :: bytes := by
  match bytes, h with
  | modrm :: tail, h =>
    simp only [decodeRmReg, fetch8] at h
    split at h
    · cases h
    next rm afterRm hrm =>
      cases h
      obtain ⟨hwf, hbytes⟩ := modrmBytes_of_decodeOperand hrm
      exact ⟨(wf_ofRmReg ..).trans hwf, by simp [encode_ofRmReg, encodeRmReg, hbytes]⟩

theorem decodeImmRm_eq_instr {b0 : Byte} {bytes rest : List Byte} {i : Instr}
    (h : decodeImmRm b0 bytes = .instr i rest) :
    i.wf = true ∧ encode i ++ rest = (0b100000#6 ++ bit1 b0 ++ bit0 b0) :: bytes := by
  match bytes, h with
  | modrm :: tail, h =>
    simp only [decodeImmRm, fetch8] at h
    split at h
    · cases h
    next op hop =>
      split at h
      · cases h
      next rm afterRm hrm =>
        split at h
        · cases h
        next imm afterImm himm =>
          cases h
          obtain ⟨hrmwf, hbytes⟩ := modrmBytes_of_decodeOperand hrm
          obtain ⟨rfl, himmwf⟩ := fetchImmRm_eq_some himm
          have hreg := subOp80_eq_some _ _ hop
          exact ⟨by simp [wf_ofImmRm, hrmwf, himmwf],
            by simp [encode_ofImmRm, encodeImmRm, ofBool_sBit, ← hreg, hbytes]⟩

theorem decodeMoviRm_eq_instr {b0 : Byte} {bytes rest : List Byte} {i : Instr}
    (h : decodeMoviRm b0 bytes = .instr i rest) :
    i.wf = true ∧ encode i ++ rest = (0b1100011#7 ++ bit0 b0) :: bytes := by
  match bytes, h with
  | modrm :: tail, h =>
    simp only [decodeMoviRm, fetch8] at h
    split at h
    · cases h
    next hreg =>
      split at h
      · cases h
      next rm afterRm hrm =>
        split at h
        · cases h
        next imm afterImm himm =>
          cases h
          obtain ⟨hrmwf, hbytes⟩ := modrmBytes_of_decodeOperand hrm
          obtain ⟨rfl, himmwf⟩ := fetchImm_eq_some himm
          have hreg : regField modrm = 0#3 := by simpa using hreg
          rw [hreg] at hbytes
          exact ⟨by simp [Instr.wf, hrmwf, himmwf], by simp [encode, hbytes]⟩

/-! ## The decoder -/

/-- What the decoder reads is well formed, and the bytes it read are its encoding (R70-R95). -/
theorem decode_eq_instr {bytes rest : List Byte} {i : Instr} (h : decode bytes = .instr i rest) :
    i.wf = true ∧ encode i ++ rest = bytes := by
  match bytes, h with
  | b0 :: tail, h =>
    simp only [decode] at h
    split at h
    · cases h
    next e he =>
      rw [← opcodeByte_of_dispatch he]
      cases e with
      | jcc c => exact decodeJcc_eq_instr h
      | moviRm => exact decodeMoviRm_eq_instr h
      | accImm op => exact decodeAccImm_eq_instr h
      | immRm => exact decodeImmRm_eq_instr h
      | rmReg op => exact decodeRmReg_eq_instr h
      | moviReg => exact decodeMoviReg_eq_instr h

end Sys2Proof

namespace Sys2Proof.Machine

/-- Before the end of the stream, `IP` and the code bytes left to fetch fill it (R111, R112). -/
theorem ip_add_fetchBytes_length {s : State} (h : decode (fetchBytes s) ≠ .endOfStream) :
    s.ip.toNat + (fetchBytes s).length = s.code.length ∧ 0 < (fetchBytes s).length := by
  have hpos : 0 < (fetchBytes s).length := List.length_pos_of_ne_nil fun he => h (by rw [he]; rfl)
  simp only [fetchBytes, List.length_drop] at hpos ⊢
  omega

/-- An instruction decoded at `IP` lies inside the code stream (R102, R112). -/
theorem ip_add_length_le {s : State} {i : Instr} {rest : List Byte}
    (h : decode (fetchBytes s) = .instr i rest) : s.ip.toNat + i.length ≤ s.code.length := by
  obtain ⟨hfill, -⟩ := ip_add_fetchBytes_length (s := s) (by simp [h])
  obtain ⟨-, hbytes⟩ := decode_eq_instr h
  rw [← hbytes, List.length_append, encode_length] at hfill
  omega

/-- A skipped byte lies inside the code stream (R83, R112). -/
theorem ip_lt_of_unrecognised {s : State} {b0 : Byte}
    (h : decode (fetchBytes s) = .unrecognised b0) : s.ip.toNat < s.code.length := by
  obtain ⟨hfill, hpos⟩ := ip_add_fetchBytes_length (s := s) (by simp [h])
  omega

end Sys2Proof.Machine
end

section
/-! PROOFS. Where a step leaves `IP`, and the machine invariant (R30, R31). -/

namespace Sys2Proof.Machine

/-- In a stream that fits `IP`, moving past bytes inside it does not wrap (R30, R115). -/
theorem toNat_ipAfter {s : State} {n : Nat} (hfit : s.CodeFits) (hin : s.ip.toNat + n ≤ s.code.length) :
    (ipAfter s n).toNat = s.ip.toNat + n := by
  unfold State.CodeFits at hfit
  simp only [ipAfter, BitVec.toNat_add, BitVec.toNat_ofNat]
  omega

/-- A jump reaches at most 127 bytes past the next instruction (R180). -/
theorem jumpTarget_le (s : State) (rel8 : Byte) : jumpTarget s rel8 ≤ s.ip.toNat + 2 + 127 := by
  have hrel : rel8.toInt < 2 ^ 7 := BitVec.toInt_lt
  simp only [jumpTarget]
  omega

/-- A position in the range of `IP` is held as it is (R30, R184). -/
theorem toNat_ofInt_of_range {n : Int} (h0 : 0 ≤ n) (hlt : n < 2 ^ 32) : ((BitVec.ofInt 32 n).toNat : Int) = n := by
  simp only [BitVec.toNat_ofInt]
  omega

/-- The three ways an instruction inside a stream that fits `IP` leaves it (R31): a halt at its start, the target of a
taken `jne`, or the position after its bytes. -/
theorem exec_ip_cases {i : Instr} {s t : State} (hfit : s.CodeFits)
    (hin : s.ip.toNat + i.length ≤ s.code.length) (h : exec i s = .next t) :
    (t.status ≠ .running ∧ t.ip = s.ip) ∨
    (∃ rel8, i = .jne rel8 ∧ (s.simulate = true ∧ s.flags.zf = false) ∧ (t.ip.toNat : Int) = jumpTarget s rel8) ∨
    ((∀ rel8, i = .jne rel8 → ¬ (s.simulate = true ∧ s.flags.zf = false)) ∧
      t.ip.toNat = s.ip.toNat + i.length) := by
  rcases exec_next_cases h with ⟨rel8, -, -, -, -, rfl⟩ | ⟨rel8, rfl, hs, hz, hnonneg, rfl⟩ |
    ⟨e, -, hz, he, rfl⟩ | ⟨hs, rfl⟩
  · exact .inl ⟨by simp, rfl⟩
  · have hle := jumpTarget_le s rel8
    have hlt : jumpTarget s rel8 < 2 ^ 32 := by
      simp only [State.CodeFits, Instr.length] at hfit hin
      omega
    exact .inr (.inl ⟨rel8, rfl, ⟨hs, hz⟩, toNat_ofInt_of_range (not_lt.mp hnonneg) hlt⟩)
  · refine .inr (.inr ⟨fun rel8 hi hjump => by simp [hz rel8 hi] at hjump, ?_⟩)
    rw [commitSim_ip, he.target, toNat_ipAfter hfit hin]
  · refine .inr (.inr ⟨fun _ _ hjump => by simp [hs] at hjump, ?_⟩)
    rw [commitDecode_ip, toNat_ipAfter hfit hin]

/-- No instruction changes the code stream (R67). -/
theorem exec_code {i : Instr} {s t : State} (h : exec i s = .next t) : t.code = s.code := by
  rcases exec_next_cases h with ⟨rel8, -, -, -, -, rfl⟩ | ⟨rel8, rfl, -, -, -, rfl⟩ | ⟨e, -, -, he, rfl⟩ | ⟨-, rfl⟩
  · rfl
  · rfl
  · obtain ⟨hcode, -, -⟩ := he.inputs
    exact hcode
  · rfl

/-- Every instruction keeps the canonical form of the data memory. -/
theorem exec_mem_wf {i : Instr} {s t : State} (hwf : s.mem.wf = true) (h : exec i s = .next t) :
    t.mem.wf = true := by
  rcases exec_next_cases h with ⟨rel8, -, -, -, -, rfl⟩ | ⟨rel8, rfl, -, -, -, rfl⟩ | ⟨e, -, -, he, rfl⟩ | ⟨-, rfl⟩
  · exact hwf
  · exact hwf
  · exact he.memory hwf
  · exact hwf

/-- The machine invariant depends on the memory, the code stream and `IP` alone. -/
theorem State.Inv.congr {s t : State} (h : s.Inv) (hmem : t.mem = s.mem) (hcode : t.code = s.code)
    (hip : t.ip = s.ip) : t.Inv := by
  obtain ⟨hwf, hfit, hreach⟩ := h
  exact ⟨by rwa [hmem], by rwa [State.CodeFits, hcode], by rwa [hip, hcode]⟩

/-- A skipped byte keeps the machine invariant (R83). -/
theorem skip_inv {s : State} (b0 : Byte) (h : s.Inv) (hlt : s.ip.toNat < s.code.length) : (skip b0 s).Inv := by
  obtain ⟨hwf, hfit, -⟩ := h
  refine ⟨hwf, hfit, ?_⟩
  rw [skip_ip, skip_code, toNat_ipAfter hfit hlt]
  omega

/-- An instruction inside the stream keeps the machine invariant; the farthest `IP` it leaves is a jump at the end of
the stream (R184). -/
theorem exec_inv {i : Instr} {s t : State} (h : s.Inv) (hin : s.ip.toNat + i.length ≤ s.code.length)
    (hexec : exec i s = .next t) : t.Inv := by
  obtain ⟨hwf, hfit, hreach⟩ := h
  have hcode := exec_code hexec
  refine ⟨exec_mem_wf hwf hexec, by rwa [State.CodeFits, hcode], ?_⟩
  rw [hcode]
  rcases exec_ip_cases hfit hin hexec with ⟨-, hip⟩ | ⟨rel8, rfl, -, hip⟩ | ⟨-, hip⟩
  · rwa [hip]
  · have hle := jumpTarget_le s rel8
    simp only [Instr.length] at hin
    omega
  · omega

/-- Settles O29, by the cases of a step: an ended run moves nothing, and a skip or an instruction starts and ends
inside the stream unless it is a taken `jne`. -/
theorem stepKeepsMachineInvariant : Obligations.StepKeepsMachineInvariant := by
  intro s t h hstep
  obtain ⟨-, hcases⟩ := step_cases hstep
  rcases hcases with ⟨-, rfl⟩ | ⟨b0, hd, rfl⟩ | ⟨-, rfl⟩ | ⟨-, rfl⟩ | ⟨i, rest, hd, hexec⟩
  · exact h.congr (endRun_mem s) (endRun_code s) (endRun_ip s)
  · exact skip_inv b0 h (ip_lt_of_unrecognised hd)
  · exact h.congr rfl rfl rfl
  · exact h.congr rfl rfl rfl
  · exact exec_inv h (ip_add_length_le hd) hexec

/-- Settles O28, by the cases of a step and, for an instruction, the three ways it leaves `IP`. -/
theorem ipAdvancesAsTheStepDecodes : Obligations.IpAdvancesAsTheStepDecodes := by
  intro s t hfit hstep hrun
  obtain ⟨-, hcases⟩ := step_cases hstep
  rcases hcases with ⟨-, rfl⟩ | ⟨b0, hd, rfl⟩ | ⟨-, rfl⟩ | ⟨-, rfl⟩ | ⟨i, rest, hd, hexec⟩
  · simp at hrun
  · simp only [hd]
    exact toNat_ipAfter hfit (ip_lt_of_unrecognised hd)
  · simp at hrun
  · simp at hrun
  · have hip := exec_ip_cases hfit (ip_add_length_le hd) hexec
    rw [hd]
    rcases hip with ⟨hhalt, -⟩ | ⟨rel8, rfl, hjump, hip⟩ | ⟨hfall, hip⟩
    · exact absurd hrun hhalt
    · exact ⟨fun _ => hip, fun hno => absurd hjump hno⟩
    · cases i with
      | jne rel8 => exact ⟨fun hjump => absurd hjump (hfall rel8 rfl), fun _ => hip⟩
      | _ => exact hip

end Sys2Proof.Machine
end

section
/-! PROOFS. Which instructions read the flags: two runs from states that differ in the flags alone (R29, R195). -/

namespace Sys2Proof.Machine

/-- The state with other flags. -/
def State.withFlags (s : State) (f : Flags) : State := { s with flags := f }

/-- The result of a body with other flags. -/
def Executed.withFlags (e : Executed) (f : Flags) : Executed := { e with state := e.state.withFlags f }

/-- The two states agree on the registers, the memory, `IP`, `CYC` and `STATUS`. -/
structure AgreeButFlags (t u : State) : Prop where
  regs : t.regs = u.regs
  mem : t.mem = u.mem
  ip : t.ip = u.ip
  cyc : t.cyc = u.cyc
  status : t.status = u.status

/-- `e` is the result of a body on `s`, and `e'` its result with the flags `f` before it: the same, or, where the body
wrote no flag, the same but for the flags that were there. -/
def FlagBlind (s : State) (f : Flags) (e e' : Executed) : Prop :=
  e' = e ∨ (e' = e.withFlags f ∧ e.state.flags = s.flags)

/-! ## The bodies -/

/-- A move to a register overwrites both flags, a move to memory writes neither (R130). -/
theorem moveBody_flagBlind (w : Width) (dst : Operand) (v : w.Val) (cost : Nat) (p : Pos) (s : State) (f : Flags) :
    FlagBlind s f (moveBody w dst v cost p s) (moveBody w dst v cost p (s.withFlags f)) := by
  cases dst with
  | register w' i =>
    left
    cases w <;> rfl
  | memory m => exact .inr ⟨rfl, rfl⟩

/-- `add` and `sub` overwrite both flags (R153). -/
theorem aluBody_flagBlind (w : Width) (dst : Operand) (r : w.Val) (cost : Nat) (p : Pos) (s : State) (f : Flags) :
    FlagBlind s f (aluBody w dst r cost p s) (aluBody w dst r cost p (s.withFlags f)) := by
  left
  cases dst <;> cases w <;> rfl

/-- `cmp` overwrites both flags (R162). -/
theorem cmpBody_flagBlind (w : Width) (dst : Operand) (r : w.Val) (cost : Nat) (p : Pos) (s : State) (f : Flags) :
    FlagBlind s f (cmpBody w dst r cost p s) (cmpBody w dst r cost p (s.withFlags f)) :=
  .inl rfl

/-- The conditional transfers other than `jne` write no flag (R181). -/
theorem fallThroughBody_flagBlind (p : Pos) (s : State) (f : Flags) :
    FlagBlind s f (fallThroughBody p s) (fallThroughBody p (s.withFlags f)) :=
  .inr ⟨rfl, rfl⟩

/-! ## The commit -/

@[simp] theorem ipAfter_withFlags (s : State) (f : Flags) (n : Nat) : ipAfter (s.withFlags f) n = ipAfter s n := rfl

/-- Committing a body that wrote no flag leaves the flags that were there, in either mode (R116, R118). -/
theorem complete_of_flagsKept {i : Instr} {body : Pos → State → Executed} {s : State} {f : Flags}
    (hbody : body (ipAfter s i.length) (s.withFlags f) = (body (ipAfter s i.length) s).withFlags f)
    (hflags : (body (ipAfter s i.length) s).state.flags = s.flags) :
    ∃ t u, complete i body s = .next t ∧ complete i body (s.withFlags f) = .next u ∧ AgreeButFlags t u ∧
      t.flags = s.flags ∧ u.flags = f := by
  cases hs : s.simulate with
  | true =>
    have hu : complete i body (s.withFlags f) =
        .next (commitSim i (s.withFlags f) ((body (ipAfter s i.length) s).withFlags f)) := by
      rw [complete_sim (s := s.withFlags f) hs, ipAfter_withFlags, hbody]
    exact ⟨_, _, complete_sim hs, hu, ⟨rfl, rfl, rfl, rfl, rfl⟩, hflags, rfl⟩
  | false =>
    exact ⟨_, _, complete_decodeOnly hs, complete_decodeOnly hs, ⟨rfl, rfl, rfl, rfl, rfl⟩, rfl, rfl⟩

/-- Committing a body that gives the same result with other flags leaves equal flags, or in decode-only mode those
that were there (R116, R118). -/
theorem complete_of_sameResult {i : Instr} {body : Pos → State → Executed} {s : State} {f : Flags}
    (hbody : body (ipAfter s i.length) (s.withFlags f) = body (ipAfter s i.length) s) :
    ∃ t u, complete i body s = .next t ∧ complete i body (s.withFlags f) = .next u ∧ AgreeButFlags t u ∧
      (t.flags = u.flags ∨ (t.flags = s.flags ∧ u.flags = f)) := by
  cases hs : s.simulate with
  | true =>
    have hu : complete i body (s.withFlags f) =
        .next (commitSim i (s.withFlags f) (body (ipAfter s i.length) s)) := by
      rw [complete_sim (s := s.withFlags f) hs, ipAfter_withFlags, hbody]
    exact ⟨_, _, complete_sim hs, hu, ⟨rfl, rfl, rfl, rfl, rfl⟩, .inl rfl⟩
  | false =>
    exact ⟨_, _, complete_decodeOnly hs, complete_decodeOnly hs, ⟨rfl, rfl, rfl, rfl, rfl⟩, .inr ⟨rfl, rfl⟩⟩

/-! ## The instructions -/

/-- Every instruction but `jne` completes with one body, whatever the flags, and the body reads no flag (R29). -/
theorem exec_flagBlind {i : Instr} (hi : ∀ rel8, i ≠ .jne rel8) (s : State) (f : Flags) :
    ∃ body, exec i s = complete i body s ∧ exec i (s.withFlags f) = complete i body (s.withFlags f) ∧
      ∀ p, FlagBlind s f (body p s) (body p (s.withFlags f)) := by
  cases i with
  | movRmReg d w rm reg => exact ⟨_, rfl, rfl, fun p => moveBody_flagBlind ..⟩
  | movImmReg w reg imm => exact ⟨_, rfl, rfl, fun p => moveBody_flagBlind ..⟩
  | movImmRm w rm imm => exact ⟨_, rfl, rfl, fun p => moveBody_flagBlind ..⟩
  | addRmReg d w rm reg => exact ⟨_, rfl, rfl, fun p => aluBody_flagBlind ..⟩
  | addImmRm sx w rm imm => exact ⟨_, rfl, rfl, fun p => aluBody_flagBlind ..⟩
  | addImmAcc w imm => exact ⟨_, rfl, rfl, fun p => aluBody_flagBlind ..⟩
  | subRmReg d w rm reg => exact ⟨_, rfl, rfl, fun p => aluBody_flagBlind ..⟩
  | subImmRm sx w rm imm => exact ⟨_, rfl, rfl, fun p => aluBody_flagBlind ..⟩
  | subImmAcc w imm => exact ⟨_, rfl, rfl, fun p => aluBody_flagBlind ..⟩
  | cmpRmReg d w rm reg => exact ⟨_, rfl, rfl, fun p => cmpBody_flagBlind ..⟩
  | cmpImmRm sx w rm imm => exact ⟨_, rfl, rfl, fun p => cmpBody_flagBlind ..⟩
  | cmpImmAcc w imm => exact ⟨_, rfl, rfl, fun p => cmpBody_flagBlind ..⟩
  | jne rel8 => exact absurd rfl (hi rel8)
  | je rel8 | jl rel8 | jle rel8 | jb rel8 | jbe rel8 | jp rel8 | jo rel8 | js rel8 | jnl rel8 | jg rel8
  | jnb rel8 | ja rel8 | jnp rel8 | jno rel8 | jns rel8 | loop rel8 | loopz rel8 | loopnz rel8 | jcxz rel8 =>
    exact ⟨_, rfl, rfl, fun p => fallThroughBody_flagBlind ..⟩

/-- Two runs of an instruction other than `jne` from states that differ in the flags (R29). -/
theorem exec_withFlags {i : Instr} (hi : ∀ rel8, i ≠ .jne rel8) (s : State) (f : Flags) :
    ∃ t u, exec i s = .next t ∧ exec i (s.withFlags f) = .next u ∧ AgreeButFlags t u ∧
      (t.flags = u.flags ∨ (t.flags = s.flags ∧ u.flags = f)) := by
  obtain ⟨body, hs, hf, hblind⟩ := exec_flagBlind hi s f
  rw [hs, hf]
  rcases hblind (ipAfter s i.length) with hsame | ⟨hbody, hflags⟩
  · exact complete_of_sameResult hsame
  · obtain ⟨t, u, ht, hu, hagree, hkept⟩ := complete_of_flagsKept hbody hflags
    exact ⟨t, u, ht, hu, hagree, .inr hkept⟩

/-- `jne` decides by the mode and `ZF` (R195). -/
theorem jneTaken_withFlags {s : State} {f : Flags} (h : f.zf = s.flags.zf) :
    jneTaken (s.withFlags f) = jneTaken s := by
  simp [jneTaken, State.withFlags, h]

@[simp] theorem jumpTarget_withFlags (s : State) (f : Flags) (rel8 : Byte) :
    jumpTarget (s.withFlags f) rel8 = jumpTarget s rel8 := rfl

/-- Two runs of `jne` from states that differ in `SF` only: both halt, both jump or both fall through (R29, R195). -/
theorem execJne_withFlags (rel8 : Byte) {s : State} {f : Flags} (h : f.zf = s.flags.zf) :
    ∃ t u, exec (.jne rel8) s = .next t ∧ exec (.jne rel8) (s.withFlags f) = .next u ∧ AgreeButFlags t u ∧
      t.flags = s.flags ∧ u.flags = f := by
  simp only [exec, execJne, jneTaken_withFlags h, jumpTarget_withFlags]
  by_cases ht : jneTaken s = true
  · by_cases hn : jumpTarget s rel8 < 0
    · simp only [ht, hn, if_true]
      exact ⟨_, _, rfl, rfl, ⟨rfl, rfl, rfl, rfl, rfl⟩, rfl, rfl⟩
    · simp only [ht, hn, if_true, if_false]
      exact complete_of_flagsKept rfl rfl
  · simp only [ht]
    exact complete_of_flagsKept rfl rfl

/-- Settles O51, by comparing two runs of each body: it overwrites both flags or writes neither. -/
theorem onlyJneReadsFlags : Obligations.OnlyJneReadsFlags := by
  constructor
  · intro i s f hi
    obtain ⟨t, u, ht, hu, ⟨hregs, hmem, hip, hcyc, hstatus⟩, hflags⟩ := exec_withFlags hi s f
    exact ⟨t, u, ht, hu, hregs, hmem, hip, hcyc, hstatus, hflags⟩
  · intro rel8 s sf
    obtain ⟨t, u, ht, hu, ⟨hregs, hmem, hip, hcyc, hstatus⟩, hflags⟩ :=
      execJne_withFlags rel8 (s := s) (f := ⟨s.flags.zf, sf⟩) rfl
    exact ⟨t, u, ht, hu, hregs, hmem, hip, hcyc, hstatus, hflags⟩

end Sys2Proof.Machine
end

section
/-! PROOFS. The registers and their byte views, the flags and their string, and the data memory at reset. -/

namespace Sys2Proof.Machine

/-- Byte registers 0-3 are the low halves of the slots of the same index (R22). -/
theorem byte_low_half : ∀ i : BitVec 3, i.toNat < 4 → isLowHalf i = true ∧ byteSlot i = i := by
  decide

/-- Byte registers 4-7 are the high halves of the slots 0-3 (R22). -/
theorem byte_high_half : ∀ i : BitVec 3, 4 ≤ i.toNat → isLowHalf i = false ∧ byteSlot i = i - 4 := by
  decide

/-- A byte write sets its half of its slot and keeps the other half (R23). -/
theorem wordReg_setByteReg_slot (s : State) (i : BitVec 3) (v : Byte) :
    wordReg (setByteReg s i v) (byteSlot i) =
      if isLowHalf i then le16 v (hiByte (wordReg s (byteSlot i)))
      else le16 (loByte (wordReg s (byteSlot i))) v := by
  simp [setByteReg]

/-- A byte write leaves every slot but its own alone (R23). -/
theorem wordReg_setByteReg_ne {s : State} {i j : BitVec 3} (v : Byte) (h : j ≠ byteSlot i) :
    wordReg (setByteReg s i v) j = wordReg s j :=
  wordReg_setWordReg_ne _ h

/-- Settles O1: each range of the index names its half and slot, and the write of a byte is one slot's write. -/
theorem byteRegistersAliasSlotHalves : Obligations.ByteRegistersAliasSlotHalves := by
  intro s i v
  have hslot := wordReg_setByteReg_slot s i v
  have hne := fun j => wordReg_setByteReg_ne (s := s) (i := i) (j := j) v
  constructor
  · intro hlow
    obtain ⟨hhalf, hbs⟩ := byte_low_half i hlow
    rw [hhalf, hbs] at hslot
    rw [hbs] at hne
    exact ⟨by simp [readReg, byteReg, hhalf, hbs, loByte], hslot, hne⟩
  · intro hhigh
    obtain ⟨hhalf, hbs⟩ := byte_high_half i hhigh
    rw [hhalf, hbs] at hslot
    rw [hbs] at hne
    exact ⟨by simp [readReg, byteReg, hhalf, hbs, hiByte], hslot, hne⟩

/-- Settles O2, by read after write of the register file. -/
theorem wordRegisterWriteIsLocal : Obligations.WordRegisterWriteIsLocal := by
  intro s i v
  exact ⟨rfl, wordReg_setWordReg_same s i v, fun _ hj => wordReg_setWordReg_ne v hj⟩

/-- Settles O8: the flags are those of the result, and a word is 0 as a bit pattern when it is 0 as an integer. -/
theorem wordResultFlags : Obligations.WordResultFlags := by
  intro s r
  obtain ⟨hzero, hsign⟩ := flagsOfResult_of_eq (setFlags_flags s .word r)
  exact ⟨hzero.trans BitVec.toInt_inj.symm, hsign⟩

/-- Settles O9, one flag state at a time. -/
theorem flagStringOfEachFlagState : Obligations.FlagStringOfEachFlagState :=
  ⟨rfl, rfl, rfl, rfl⟩

/-- Settles O33: the memory of a launch lists no byte, and an unlisted address reads 0. -/
theorem memoryIsZeroAtReset : Obligations.MemoryIsZeroAtReset := by
  intro l a
  rw [memRead, launch_mem]
  rfl

end Sys2Proof.Machine
end

section
/-! PROOFS. The data memory and the operands: the canonical form is unique, a store writes one byte, and what an operand
form reads, stores and addresses (R51-R61). -/

namespace Sys2Proof.Machine

/-! ## The canonical form (log entry 18) -/

/-- The two memories hold the same byte at every address. -/
def Memory.ReadAlike (m m' : Memory) : Prop := ∀ a, a < memSize → m.get a = m'.get a

theorem Memory.ReadAlike.symm {m m' : Memory} (h : m.ReadAlike m') : m'.ReadAlike m := fun a ha => (h a ha).symm

@[simp] theorem Memory.wfFrom_listed {low k : Nat} {b : Byte} {rest : Memory} :
    Memory.wfFrom low ((k, b) :: rest) = true ↔
      low ≤ k ∧ k < memSize ∧ b ≠ unlistedByte ∧ Memory.wfFrom (k + 1) rest = true := by
  simp [Memory.wfFrom, and_assoc]

@[simp] theorem Memory.get_listed_same (k : Nat) (b : Byte) (rest : Memory) : Memory.get ((k, b) :: rest) k = b := by
  simp [Memory.get]

theorem Memory.get_listed_ne {k a : Nat} (b : Byte) (rest : Memory) (h : k ≠ a) :
    Memory.get ((k, b) :: rest) a = Memory.get rest a := by
  simp [Memory.get, h]

/-- A memory that reads like one with `k` listed is not wholly above `k`: there it would read the unlisted byte. -/
theorem Memory.not_wfFrom_of_readAlike {low k : Nat} {b : Byte} {rest m' : Memory}
    (hwf : Memory.wfFrom low ((k, b) :: rest) = true) (h : Memory.ReadAlike ((k, b) :: rest) m') :
    ¬ Memory.wfFrom (k + 1) m' = true := by
  obtain ⟨-, hk, hb, -⟩ := Memory.wfFrom_listed.mp hwf
  intro habove
  have hread : b = m'.get k := by simpa using h k hk
  exact hb (hread.trans (Memory.get_below habove (Nat.lt_succ_self k)))

/-- Two canonical memories that read alike do not list their first byte at rising addresses. -/
theorem Memory.head_le_of_readAlike {low k k' : Nat} {b b' : Byte} {rest rest' : Memory}
    (hwf : Memory.wfFrom low ((k, b) :: rest) = true) (hwf' : Memory.wfFrom low ((k', b') :: rest') = true)
    (h : Memory.ReadAlike ((k, b) :: rest) ((k', b') :: rest')) : k' ≤ k := by
  by_contra hlt
  obtain ⟨-, hk', hb', hrest'⟩ := Memory.wfFrom_listed.mp hwf'
  exact Memory.not_wfFrom_of_readAlike hwf h (Memory.wfFrom_listed.mpr ⟨by omega, hk', hb', hrest'⟩)

/-- Behind a common first address, canonical memories that read alike have tails that read alike. -/
theorem Memory.ReadAlike.tail {k : Nat} {b b' : Byte} {rest rest' : Memory}
    (h : Memory.ReadAlike ((k, b) :: rest) ((k, b') :: rest'))
    (hrest : Memory.wfFrom (k + 1) rest = true) (hrest' : Memory.wfFrom (k + 1) rest' = true) :
    Memory.ReadAlike rest rest' := by
  intro a ha
  by_cases hak : a < k + 1
  · rw [Memory.get_below hrest hak, Memory.get_below hrest' hak]
  · have hne : k ≠ a := by omega
    simpa [Memory.get_listed_ne _ _ hne] using h a ha

/-- Canonical memories that read alike are equal, by induction on the listed bytes: the first addresses agree, so the
first bytes do, and the tails read alike. -/
theorem Memory.eq_of_readAlike {m m' : Memory} {low : Nat} (hwf : Memory.wfFrom low m = true)
    (hwf' : Memory.wfFrom low m' = true) (h : m.ReadAlike m') : m = m' := by
  induction m generalizing low m' with
  | nil =>
    cases m' with
    | nil => rfl
    | cons cell' rest' => exact absurd rfl (Memory.not_wfFrom_of_readAlike hwf' h.symm)
  | cons cell rest ih =>
    cases m' with
    | nil => exact absurd rfl (Memory.not_wfFrom_of_readAlike hwf h)
    | cons cell' rest' =>
      obtain ⟨k, b⟩ := cell
      obtain ⟨k', b'⟩ := cell'
      obtain rfl : k = k' :=
        Nat.le_antisymm (Memory.head_le_of_readAlike hwf' hwf h.symm) (Memory.head_le_of_readAlike hwf hwf' h)
      obtain ⟨-, hk, -, hrest⟩ := Memory.wfFrom_listed.mp hwf
      obtain ⟨-, -, -, hrest'⟩ := Memory.wfFrom_listed.mp hwf'
      obtain rfl : b = b' := by simpa using h k hk
      rw [ih hrest hrest' (h.tail hrest hrest')]

/-- Settles O4: the canonical form lists exactly the bytes that differ from the unlisted one, in one order. -/
theorem canonicalMemoriesThatReadAlikeAreEqual : Obligations.CanonicalMemoriesThatReadAlikeAreEqual :=
  fun _ _ hwf hwf' h => Memory.eq_of_readAlike hwf hwf' h

/-! ## The run inputs (R67, R126) -/

/-- No instruction changes the run inputs: its writes are staged, or `jne` writes none (R119). -/
theorem exec_sameInputs {i : Instr} {s t : State} (h : exec i s = .next t) : SameInputs s t := by
  rcases exec_next_cases h with ⟨rel8, -, -, -, -, rfl⟩ | ⟨rel8, rfl, -, -, -, rfl⟩ | ⟨e, -, -, he, rfl⟩ | ⟨-, rfl⟩
  · exact ⟨rfl, rfl, rfl⟩
  · exact ⟨rfl, rfl, rfl⟩
  · exact he.inputs
  · exact ⟨rfl, rfl, rfl⟩

/-- Settles O27, by the cases of a step: a halt, the clean end and a skip write `STATUS`, `UNREC`, `IP` and the trace
alone, and no instruction writes an input. -/
theorem runInputsNeverChange : Obligations.RunInputsNeverChange := by
  intro s t hstep
  obtain ⟨-, hcases⟩ := step_cases hstep
  rcases hcases with ⟨-, rfl⟩ | ⟨b0, -, rfl⟩ | ⟨-, rfl⟩ | ⟨-, rfl⟩ | ⟨i, rest, -, hexec⟩
  · exact ⟨endRun_code s, endRun_simulate s, endRun_params s⟩
  · exact ⟨rfl, rfl, rfl⟩
  · exact ⟨rfl, rfl, rfl⟩
  · exact ⟨rfl, rfl, rfl⟩
  · exact exec_sameInputs hexec

/-! ## Stores and reads (R51, R52, R60, R61) -/

/-- Settles O3, by read after write of the data memory. -/
theorem memoryWriteChangesOneByte : Obligations.MemoryWriteChangesOneByte :=
  fun _ a v hwf => ⟨memRead_memWrite_same a v hwf, fun _ hb => memRead_memWrite_ne v hb, rfl⟩

/-- Settles O5: a register operand reads back what was written, and a memory operand is written at its one address,
which `EA+1` is not. -/
theorem writeOperandStoresByForm : Obligations.WriteOperandStoresByForm := by
  intro s m i v8 v16 hwf
  have hnext : effectiveAddress s m + 1 ≠ effectiveAddress s m := by simp
  refine ⟨wordReg_setWordReg_same s i v16, byteReg_setByteReg_same s i v8, ?_, ?_, ?_⟩
  · exact memRead_memWrite_same _ v8 hwf
  · exact memRead_memWrite_same _ (trunc8 v16) hwf
  · exact memRead_memWrite_ne _ hnext

/-- The zero extension keeps the byte's unsigned value (R60). -/
theorem toNat_extendRead_zero (b : Byte) : BitVec.toNat (extendRead .zero .word b) = b.toNat :=
  BitVec.toNat_setWidth_of_le (by decide)

/-- The sign extension keeps the byte's signed value (R12, R60). -/
theorem toInt_extendRead_sign (b : Byte) : BitVec.toInt (extendRead .sign .word b) = b.toInt :=
  BitVec.toInt_signExtend_of_le (by decide)

/-- Settles O6: a memory operand reads one byte, which each extension keeps in its own sense. -/
theorem memoryReadExtendsOneByte : Obligations.MemoryReadExtendsOneByte := by
  intro s m
  refine ⟨rfl, fun hzero => ?_, fun hsign => ?_⟩
  · simp only [readOperand, hzero]
    exact toNat_extendRead_zero _
  · simp only [readOperand, hsign]
    exact toInt_extendRead_sign _

/-! ## Effective addresses (R56-R58) -/

/-- A sum of three words wraps once, at the end. -/
theorem toNat_add_three (x y d : Word) : (x + y + d).toNat = (x.toNat + y.toNat + d.toNat) % 65536 := by
  simp [BitVec.toNat_add]

/-- Settles O7: the rows 000-011 sum two registers and the displacement, the rows 100-111 one register and it. -/
theorem effectiveAddressIsWrappedSum : Obligations.EffectiveAddressIsWrappedSum := by
  intro s d
  refine ⟨rfl, ?_, ?_, ?_, ?_, ?_, ?_, ?_, ?_, fun base => ?_⟩
  · exact toNat_add_three (wordReg s 3) (wordReg s 6) d
  · exact toNat_add_three (wordReg s 3) (wordReg s 7) d
  · exact toNat_add_three (wordReg s 5) (wordReg s 6) d
  · exact toNat_add_three (wordReg s 5) (wordReg s 7) d
  · exact BitVec.toNat_add (wordReg s 6) d
  · exact BitVec.toNat_add (wordReg s 7) d
  · exact BitVec.toNat_add (wordReg s 5) d
  · exact BitVec.toNat_add (wordReg s 3) d
  · exact (BitVec.add_zero (baseIndex s base)).symm

end Sys2Proof.Machine
end

section
/-! PROOFS. What each family decodes to, said once by the bytes it reads, and the two round trips (R84-R93, R102). -/

namespace Sys2Proof

/-! ## The fields of a packed opcode byte (R73) -/

theorem fields_opcode6 : ∀ (o : BitVec 6) (x w : BitVec 1), bit1 (o ++ x ++ w) = x ∧ bit0 (o ++ x ++ w) = w := by
  decide

theorem bit0_opcode7 : ∀ (o : BitVec 7) (w : BitVec 1), bit0 (o ++ w) = w := by
  decide

theorem fields_moviReg : ∀ (w : BitVec 1) (r : BitVec 3),
    bit3 (0b1011#4 ++ w ++ r) = w ∧ rmField (0b1011#4 ++ w ++ r) = r := by
  decide

/-- The s bit of an opcode byte that was packed from it (R88). -/
theorem sBit_opcode6 (o : BitVec 6) (s : Bool) (w : BitVec 1) : sBit (o ++ BitVec.ofBool s ++ w) = s := by
  cases s <;> simp [sBit, fields_opcode6]

/-! ## What each family decodes to -/

/-- A leading byte that a row matches is decoded by the rule of its family (R80, R113). -/
theorem decode_of_dispatch {b0 : Byte} {e : Entry} (h : dispatch b0 = some e) (bytes : List Byte) :
    decode (b0 :: bytes) = decodeEntry e b0 bytes := by
  simp [decode, h]

section
variable {b0 : Byte} {bytes rest : List Byte} {i : Instr}

theorem decodeJcc_eq_instr_iff {c : Cond} :
    decodeJcc c bytes = .instr i rest ↔ ∃ rel8, bytes = rel8 :: rest ∧ .ofCond c rel8 = i := by
  cases bytes with
  | nil => simp [decodeJcc, fetch8]
  | cons rel8 tail => simp [decodeJcc, fetch8, and_comm]

theorem decodeMoviReg_eq_instr_iff :
    decodeMoviReg b0 bytes = .instr i rest ↔ ∃ imm, fetchImm (.ofBit (bit3 b0)) bytes = some (imm, rest) ∧
      .movImmReg (.ofBit (bit3 b0)) (rmField b0) imm = i := by
  cases himm : fetchImm (.ofBit (bit3 b0)) bytes <;> simp [decodeMoviReg, himm, Prod.ext_iff, and_comm]

theorem decodeAccImm_eq_instr_iff {op : AluOp} :
    decodeAccImm op b0 bytes = .instr i rest ↔ ∃ imm, fetchImm (.ofBit (bit0 b0)) bytes = some (imm, rest) ∧
      .ofAccImm op (.ofBit (bit0 b0)) imm = i := by
  cases himm : fetchImm (.ofBit (bit0 b0)) bytes <;> simp [decodeAccImm, himm, Prod.ext_iff, and_comm]

theorem decodeRmReg_eq_instr_iff {op : RmRegOp} :
    decodeRmReg op b0 bytes = .instr i rest ↔ ∃ modrm afterModrm rm, bytes = modrm :: afterModrm ∧
      decodeOperand (modField modrm) (rmField modrm) afterModrm = some (rm, rest) ∧
      .ofRmReg op (.ofBit (bit1 b0)) (.ofBit (bit0 b0)) rm (regField modrm) = i := by
  cases bytes with
  | nil => simp [decodeRmReg, fetch8]
  | cons modrm tail =>
    cases hrm : decodeOperand (modField modrm) (rmField modrm) tail <;>
      simp [decodeRmReg, fetch8, hrm, Prod.ext_iff, and_comm]

theorem decodeImmRm_eq_instr_iff :
    decodeImmRm b0 bytes = .instr i rest ↔ ∃ modrm afterModrm op rm afterRm imm, bytes = modrm :: afterModrm ∧
      subOp80 (regField modrm) = some op ∧
      decodeOperand (modField modrm) (rmField modrm) afterModrm = some (rm, afterRm) ∧
      fetchImmRm (sBit b0) (.ofBit (bit0 b0)) afterRm = some (imm, rest) ∧
      .ofImmRm op (sBit b0) (.ofBit (bit0 b0)) rm imm = i := by
  constructor
  · intro h
    match bytes, h with
    | modrm :: tail, h =>
      simp only [decodeImmRm, fetch8] at h
      split at h
      · cases h
      next op hop =>
        split at h
        · cases h
        next rm afterRm hrm =>
          split at h
          · cases h
          next imm afterImm himm =>
            cases h
            exact ⟨modrm, tail, op, rm, afterRm, imm, rfl, hop, hrm, himm, rfl⟩
  · rintro ⟨modrm, tail, op, rm, afterRm, imm, rfl, hop, hrm, himm, rfl⟩
    simp [decodeImmRm, fetch8, hop, hrm, himm]

theorem decodeMoviRm_eq_instr_iff :
    decodeMoviRm b0 bytes = .instr i rest ↔ ∃ modrm afterModrm rm afterRm imm, bytes = modrm :: afterModrm ∧
      regField modrm = 0b000#3 ∧
      decodeOperand (modField modrm) (rmField modrm) afterModrm = some (rm, afterRm) ∧
      fetchImm (.ofBit (bit0 b0)) afterRm = some (imm, rest) ∧ .movImmRm (.ofBit (bit0 b0)) rm imm = i := by
  constructor
  · intro h
    match bytes, h with
    | modrm :: tail, h =>
      simp only [decodeMoviRm, fetch8] at h
      split at h
      · cases h
      next hreg =>
        split at h
        · cases h
        next rm afterRm hrm =>
          split at h
          · cases h
          next imm afterImm himm =>
            cases h
            exact ⟨modrm, tail, rm, afterRm, imm, rfl, Decidable.not_not.mp hreg, hrm, himm, rfl⟩
  · rintro ⟨modrm, tail, rm, afterRm, imm, rfl, hreg, hrm, himm, rfl⟩
    simp [decodeMoviRm, fetch8, hreg, hrm, himm]

end

/-! ## Decoding an encoding, family by family -/

/-- The operand is read back from the ModRM byte and the displacement it encodes to (R74-R79). -/
theorem decodeOperand_modrm {rm : Rm} (reg : BitVec 3) (rest : List Byte) (h : rm.wf = true) :
    decodeOperand (modField (rm.mod ++ reg ++ rm.field)) (rmField (rm.mod ++ reg ++ rm.field))
      (rm.dispBytes ++ rest) = some (rm, rest) := by
  simp only [modrm_fields, decodeOperand_dispBytes rest h]

theorem decode_encodeJcc (c : Cond) (rel8 : Byte) (rest : List Byte) :
    decode (encodeJcc c rel8 ++ rest) = .instr (.ofCond c rel8) rest :=
  (decode_of_dispatch (dispatch_condByte c) (rel8 :: rest)).trans (decodeJcc_eq_instr_iff.mpr ⟨rel8, rfl, rfl⟩)

theorem decode_encodeAccImm (op : AluOp) {w : Width} {imm : Word} (rest : List Byte) (h : immWf w imm = true) :
    decode (encodeAccImm op.accOpcode w imm ++ rest) = .instr (.ofAccImm op w imm) rest := by
  refine (decode_of_dispatch (dispatch_accImm op w.bit) (immBytes w imm ++ rest)).trans
    (decodeAccImm_eq_instr_iff.mpr ⟨imm, ?_, ?_⟩)
  · rw [bit0_opcode7, ofBit_widthBit, fetchImm_immBytes rest h]
  · rw [bit0_opcode7, ofBit_widthBit]

theorem decode_encodeRmReg (op : RmRegOp) (d : Dir) (w : Width) {rm : Rm} (reg : BitVec 3) (rest : List Byte)
    (h : rm.wf = true) :
    decode (encodeRmReg op.opcode d w rm reg ++ rest) = .instr (.ofRmReg op d w rm reg) rest := by
  refine (decode_of_dispatch (dispatch_rmReg op d.bit w.bit) _).trans
    (decodeRmReg_eq_instr_iff.mpr ⟨_, _, rm, rfl, decodeOperand_modrm reg rest h, ?_⟩)
  simp [fields_opcode6, modrm_fields]

theorem decode_encodeImmRm (op : AluOp) {s : Bool} {w : Width} {rm : Rm} {imm : Word} (rest : List Byte)
    (h : (rm.wf && immRmWf s w imm) = true) :
    decode (encodeImmRm op.subOpcode s w rm imm ++ rest) = .instr (.ofImmRm op s w rm imm) rest := by
  obtain ⟨hrm, himm⟩ := Bool.and_eq_true_iff.mp h
  simp only [encodeImmRm, modrmBytes, List.cons_append, List.append_assoc]
  refine (decode_of_dispatch (dispatch_immRm (BitVec.ofBool s) w.bit) _).trans
    (decodeImmRm_eq_instr_iff.mpr ⟨_, _, op, rm, _, imm, rfl, ?_, decodeOperand_modrm _ _ hrm, ?_, ?_⟩)
  · simp [modrm_fields]
  · simp [sBit_opcode6, fields_opcode6, fetchImmRm_immRmBytes rest himm]
  · simp [sBit_opcode6, fields_opcode6]

theorem decode_encode_movImmReg {w : Width} (reg : BitVec 3) {imm : Word} (rest : List Byte) (h : immWf w imm = true) :
    decode (encode (.movImmReg w reg imm) ++ rest) = .instr (.movImmReg w reg imm) rest := by
  refine (decode_of_dispatch (dispatch_moviReg w.bit reg) (immBytes w imm ++ rest)).trans
    (decodeMoviReg_eq_instr_iff.mpr ⟨imm, ?_, ?_⟩)
  · simp only [fields_moviReg, ofBit_widthBit, fetchImm_immBytes rest h]
  · simp [fields_moviReg]

theorem decode_encode_movImmRm {w : Width} {rm : Rm} {imm : Word} (rest : List Byte)
    (h : (rm.wf && immWf w imm) = true) :
    decode (encode (.movImmRm w rm imm) ++ rest) = .instr (.movImmRm w rm imm) rest := by
  obtain ⟨hrm, himm⟩ := Bool.and_eq_true_iff.mp h
  simp only [encode, modrmBytes, List.cons_append, List.append_assoc]
  refine (decode_of_dispatch (dispatch_moviRm w.bit) _).trans
    (decodeMoviRm_eq_instr_iff.mpr ⟨_, _, rm, _, imm, rfl, ?_, decodeOperand_modrm _ _ hrm, ?_, ?_⟩)
  · simp [modrm_fields]
  · rw [bit0_opcode7, ofBit_widthBit, fetchImm_immBytes rest himm]
  · rw [bit0_opcode7, ofBit_widthBit]

/-! ## The round trips -/

/-- Settles O14, by the family of the instruction. -/
theorem decodeInvertsEncode : Obligations.DecodeInvertsEncode := by
  intro i rest h
  cases i with
  | movRmReg d w rm reg => exact decode_encodeRmReg .mov d w reg rest h
  | addRmReg d w rm reg => exact decode_encodeRmReg (.alu .add) d w reg rest h
  | subRmReg d w rm reg => exact decode_encodeRmReg (.alu .sub) d w reg rest h
  | cmpRmReg d w rm reg => exact decode_encodeRmReg (.alu .cmp) d w reg rest h
  | movImmReg w reg imm => exact decode_encode_movImmReg reg rest h
  | movImmRm w rm imm => exact decode_encode_movImmRm rest h
  | addImmRm s w rm imm => exact decode_encodeImmRm .add rest h
  | subImmRm s w rm imm => exact decode_encodeImmRm .sub rest h
  | cmpImmRm s w rm imm => exact decode_encodeImmRm .cmp rest h
  | addImmAcc w imm => exact decode_encodeAccImm .add rest h
  | subImmAcc w imm => exact decode_encodeAccImm .sub rest h
  | cmpImmAcc w imm => exact decode_encodeAccImm .cmp rest h
  | je | jl | jle | jb | jbe | jp | jo | js | jne | jnl
  | jg | jnb | ja | jnp | jno | jns | loop | loopz | loopnz | jcxz => exact decode_encodeJcc _ _ rest

theorem Rm.extraBytes_le (rm : Rm) : rm.extraBytes ≤ 2 := by
  rcases rm with _ | _ | ⟨_ | _, _, _⟩ | _ <;> simp [Rm.extraBytes]

theorem immSize_bounds (w : Width) : 1 ≤ immSize w ∧ immSize w ≤ 2 := by
  cases w <;> decide

theorem immRmSize_bounds (s : Bool) (w : Width) : 1 ≤ immRmSize s w ∧ immRmSize s w ≤ 2 := by
  cases s <;> cases w <;> decide

/-- An instruction has 2 to 6 bytes (R102). -/
theorem Instr.length_bounds (i : Instr) : 2 ≤ i.length ∧ i.length ≤ 6 := by
  cases i with
  | movRmReg d w rm reg | addRmReg d w rm reg | subRmReg d w rm reg | cmpRmReg d w rm reg =>
    have hrm := rm.extraBytes_le
    simp only [Instr.length]
    omega
  | movImmReg w reg imm | addImmAcc w imm | subImmAcc w imm | cmpImmAcc w imm =>
    have himm := immSize_bounds w
    simp only [Instr.length]
    omega
  | movImmRm w rm imm =>
    have hrm := rm.extraBytes_le
    have himm := immSize_bounds w
    simp only [Instr.length]
    omega
  | addImmRm s w rm imm | subImmRm s w rm imm | cmpImmRm s w rm imm =>
    have hrm := rm.extraBytes_le
    have himm := immRmSize_bounds s w
    simp only [Instr.length]
    omega
  | je | jl | jle | jb | jbe | jp | jo | js | jne | jnl
  | jg | jnb | ja | jnp | jno | jns | loop | loopz | loopnz | jcxz => simp [Instr.length]

/-- The bytes read and the bytes left are the bytes there were (R102). -/
theorem length_add_of_decode {bytes rest : List Byte} {i : Instr} (h : decode bytes = .instr i rest) :
    i.length + rest.length = bytes.length := by
  obtain ⟨-, hbytes⟩ := decode_eq_instr h
  rw [← hbytes, List.length_append, encode_length]

/-- Settles O15, by what the decoder's result encodes to and the length table. -/
theorem encodeInvertsDecode : Obligations.EncodeInvertsDecode := by
  intro bytes rest i h
  obtain ⟨hwf, hbytes⟩ := decode_eq_instr h
  exact ⟨hwf, hbytes.symm, length_add_of_decode h, i.length_bounds⟩

end Sys2Proof
end

section
/-! PROOFS. The rows of the dispatch table, the operands of the mod field, and the steps that decode no instruction
(R75-R78, R80-R83, R87, R89). -/

namespace Sys2Proof.Machine

/-! ## Dispatch and operands -/

/-- Settles O12, by checking the 256 bytes. -/
theorem dispatchRowsAreExclusive : Obligations.DispatchRowsAreExclusive := by
  unfold Obligations.DispatchRowsAreExclusive
  decide

/-- Settles O13: each mod field takes its own branch of `DecodeOperand`, and mod 00 has two. -/
theorem modFieldSelectsOperand : Obligations.ModFieldSelectsOperand := by
  intro rm b0 b1 rest
  exact ⟨rfl, rfl, fun hrm => if_neg hrm, rfl, rfl⟩

/-! ## Steps that decode no instruction -/

/-- A running core does what it decoded at `IP` says (R110, R120). -/
theorem step_of_running {s : State} (h : s.status = .running) : step s = runDecoded (decode (fetchBytes s)) s := by
  simp [step, instructionCycle, h]

/-- Unsupported bytes at `IP` halt the core there (R223). -/
theorem step_of_unsupported {s : State} (hrun : s.status = .running) (h : decode (fetchBytes s) = .unsupported) :
    ∃ t, step s = .next t ∧ Halted (.unsupportedEncoding s.ip) s t :=
  ⟨_, by rw [step_of_running hrun, h]; rfl, rfl⟩

/-- An `IMM_RM` byte whose secondary opcode is outside the subset, whatever follows the ModRM byte (R87, R99). -/
theorem decode_immRm_unsupported {b0 modrm : Byte} (rest : List Byte) (hb : dispatch b0 = some .immRm)
    (hsub : subOp80 (regField modrm) = none) : decode (b0 :: modrm :: rest) = .unsupported := by
  simp [decode_of_dispatch hb, decodeEntry, decodeImmRm, fetch8, hsub]

/-- A `MOVI_RM` byte whose reg field is not 000, whatever follows the ModRM byte (R89, R99). -/
theorem decode_moviRm_unsupported {b0 modrm : Byte} (rest : List Byte) (hb : dispatch b0 = some .moviRm)
    (hreg : regField modrm ≠ 0b000#3) : decode (b0 :: modrm :: rest) = .unsupported := by
  simp [decode_of_dispatch hb, decodeEntry, decodeMoviRm, fetch8, hreg]

/-- The secondary opcodes outside the subset (R87). -/
theorem subOp80_eq_none {sub : BitVec 3} (h0 : sub ≠ 0b000#3) (h5 : sub ≠ 0b101#3) (h7 : sub ≠ 0b111#3) :
    subOp80 sub = none := by
  simp [subOp80, h0, h5, h7]

/-- Settles O17: both families check the secondary field before they fetch anything after the ModRM byte. -/
theorem unsupportedSecondaryFieldHalts : Obligations.UnsupportedSecondaryFieldHalts := by
  intro b0 modrm rest s hrun hfetch hcase
  refine step_of_unsupported hrun ?_
  rw [hfetch]
  rcases hcase with ⟨hb, h0, h5, h7⟩ | ⟨hb, h0⟩
  · have hd : dispatch b0 = some .immRm := by rcases hb with rfl | rfl | rfl | rfl <;> decide
    exact decode_immRm_unsupported rest hd (subOp80_eq_none h0 h5 h7)
  · have hd : dispatch b0 = some .moviRm := by rcases hb with rfl | rfl <;> decide
    exact decode_moviRm_unsupported rest hd h0

/-- The ranges of the opcode map are the bytes that a dispatch row matches (R82, R96). -/
theorem dispatch_isSome : ∀ b : Byte, (dispatch b).isSome = recognisedByte b := by
  decide

/-- A leading byte outside the opcode map is left for the skip (R83). -/
theorem decode_of_not_recognised {b0 : Byte} (rest : List Byte) (h : recognisedByte b0 = false) :
    decode (b0 :: rest) = .unrecognised b0 := by
  have hd : dispatch b0 = none := by simpa [h] using dispatch_isSome b0
  simp [decode, hd]

/-- Settles O18: the step is the skip, whose fields are known. -/
theorem unrecognisedByteIsSkippedAlone : Obligations.UnrecognisedByteIsSkippedAlone := by
  intro b0 rest s hrun hfetch hb
  refine ⟨skip b0 s, ?_, rfl, rfl, rfl, rfl, rfl, rfl, rfl, rfl, rfl, rfl, rfl⟩
  rw [step_of_running hrun, hfetch, decode_of_not_recognised rest hb]
  rfl

/-! ## Redundant encodings (R97) -/

/-- Two completed instructions whose bodies stage the same registers, flags and memory leave the same ones, in either
mode (R116, R118). -/
theorem complete_alike {i j : Instr} {body body' : Pos → State → Executed} {s : State}
    (h : ∀ p q, (body p s).state = (body' q s).state) :
    ∃ t u, complete i body s = .next t ∧ complete j body' s = .next u ∧
      t.regs = u.regs ∧ t.flags = u.flags ∧ t.mem = u.mem := by
  cases hs : s.simulate with
  | true =>
    have hstate := h (ipAfter s i.length) (ipAfter s j.length)
    exact ⟨_, _, complete_sim hs, complete_sim hs, by simp [hstate]⟩
  | false => exact ⟨_, _, complete_decodeOnly hs, complete_decodeOnly hs, rfl, rfl, rfl⟩

/-- Settles O45: the first two clauses compare equal bodies and records, the others bodies that differ in their cost
alone. -/
theorem redundantEncodingsExecuteAlike : Obligations.RedundantEncodingsExecuteAlike := by
  refine ⟨fun w x y s => ⟨rfl, rfl, rfl, rfl⟩, fun rm imm s => ⟨rfl, rfl, rfl⟩, fun w x imm s => ?_,
    fun sx w imm s => ⟨?_, ?_, ?_⟩⟩
  · exact complete_alike fun _ _ => rfl
  · exact complete_alike fun _ _ => rfl
  · exact complete_alike fun _ _ => rfl
  · exact complete_alike fun _ _ => rfl

end Sys2Proof.Machine
end

section
/-! PROOFS. The decoded record of each family, from the bytes it was decoded from (R84-R95). -/

namespace Sys2Proof.Machine

/-! ## The leading byte of each family (R73) -/

theorem opcode4_eta : ∀ b : Byte, b.extractLsb' 4 4 ++ bit3 b ++ rmField b = b := by
  decide

theorem opcode6_eta : ∀ b : Byte, b.extractLsb' 2 6 ++ bit1 b ++ bit0 b = b := by
  decide

theorem opcode7_eta : ∀ b : Byte, b.extractLsb' 1 7 ++ bit0 b = b := by
  decide

theorem dispatch_of_moviReg_bits {b0 : Byte} (h : b0.extractLsb' 4 4 = 0b1011#4) : dispatch b0 = some .moviReg := by
  have hd := dispatch_moviReg (bit3 b0) (rmField b0)
  rwa [← h, opcode4_eta] at hd

theorem dispatch_of_moviRm_bits {b0 : Byte} (h : b0.extractLsb' 1 7 = 0b1100011#7) : dispatch b0 = some .moviRm := by
  have hd := dispatch_moviRm (bit0 b0)
  rwa [← h, opcode7_eta] at hd

theorem dispatch_of_immRm_bits {b0 : Byte} (h : b0.extractLsb' 2 6 = 0b100000#6) : dispatch b0 = some .immRm := by
  have hd := dispatch_immRm (bit1 b0) (bit0 b0)
  rwa [← h, opcode6_eta] at hd

theorem dispatch_of_rmReg_bits {b0 : Byte} {op : RmRegOp} (h : b0.extractLsb' 2 6 = op.opcode) :
    dispatch b0 = some (.rmReg op) := by
  have hd := dispatch_rmReg op (bit1 b0) (bit0 b0)
  rwa [← h, opcode6_eta] at hd

theorem dispatch_of_accImm_bits {b0 : Byte} {op : AluOp} (h : b0.extractLsb' 1 7 = op.accOpcode) :
    dispatch b0 = some (.accImm op) := by
  have hd := dispatch_accImm op (bit0 b0)
  rwa [← h, opcode7_eta] at hd

/-- Each row of Table 30-3 dispatches to its own transfer (R94). -/
theorem dispatch_of_mem_transferBytes : ∀ p ∈ transferBytes, dispatch p.1 = some (.jcc p.2) := by
  decide

/-! ## Operations and their mnemonics (R87, R90, R92) -/

/-- The mnemonic of an `IMM_RM` or `ACC_IMM` operation. -/
def aluMnemonic : AluOp → Mnemonic
  | .add => .add
  | .sub => .sub
  | .cmp => .cmp

/-- The mnemonic of a `RM_REG` operation. -/
def rmRegMnemonic : RmRegOp → Mnemonic
  | .mov => .mov
  | .alu op => aluMnemonic op

theorem subOpcode_mem (op : AluOp) :
    (op.subOpcode, aluMnemonic op) ∈ [(0b000#3, Mnemonic.add), (0b101#3, .sub), (0b111#3, .cmp)] := by
  cases op <;> decide

theorem accOpcode_of_mem {o : BitVec 7} {mn : Mnemonic}
    (h : (o, mn) ∈ [(0b0000010#7, Mnemonic.add), (0b0010110#7, .sub), (0b0011110#7, .cmp)]) :
    ∃ op : AluOp, o = op.accOpcode ∧ mn = aluMnemonic op := by
  simp only [List.mem_cons, Prod.mk.injEq, List.not_mem_nil, or_false] at h
  rcases h with ⟨rfl, rfl⟩ | ⟨rfl, rfl⟩ | ⟨rfl, rfl⟩
  · exact ⟨.add, rfl, rfl⟩
  · exact ⟨.sub, rfl, rfl⟩
  · exact ⟨.cmp, rfl, rfl⟩

theorem rmRegOpcode_of_mem {o : BitVec 6} {mn : Mnemonic}
    (h : (o, mn) ∈ [(0b100010#6, Mnemonic.mov), (0b000000#6, .add), (0b001010#6, .sub), (0b001110#6, .cmp)]) :
    ∃ op : RmRegOp, o = op.opcode ∧ mn = rmRegMnemonic op := by
  simp only [List.mem_cons, Prod.mk.injEq, List.not_mem_nil, or_false] at h
  rcases h with ⟨rfl, rfl⟩ | ⟨rfl, rfl⟩ | ⟨rfl, rfl⟩ | ⟨rfl, rfl⟩
  · exact ⟨.mov, rfl, rfl⟩
  · exact ⟨.alu .add, rfl, rfl⟩
  · exact ⟨.alu .sub, rfl, rfl⟩
  · exact ⟨.alu .cmp, rfl, rfl⟩

/-! ## The record of each family's instruction (R84) -/

theorem decodedInstr_ofRmReg (p0 : Pos) (op : RmRegOp) (d : Dir) (w : Width) (rm : Rm) (reg : BitVec 3) :
    decodedInstr p0 (.ofRmReg op d w rm reg) =
      recordRmReg (rmRegMnemonic op) p0 (Instr.ofRmReg op d w rm reg).length d w rm reg := by
  rcases op with _ | (_ | _ | _) <;> rfl

theorem decodedInstr_ofImmRm (p0 : Pos) (op : AluOp) (s : Bool) (w : Width) (rm : Rm) (imm : Word) :
    decodedInstr p0 (.ofImmRm op s w rm imm) =
      recordImm .immRm (aluMnemonic op) p0 (Instr.ofImmRm op s w rm imm).length w (rmOperand w rm) imm := by
  cases op <;> rfl

theorem decodedInstr_ofAccImm (p0 : Pos) (op : AluOp) (w : Width) (imm : Word) :
    decodedInstr p0 (.ofAccImm op w imm) =
      recordImm .accImm (aluMnemonic op) p0 (Instr.ofAccImm op w imm).length w (accumulator w) imm := by
  cases op <;> rfl

theorem decodedInstr_ofCond (p0 : Pos) (c : Cond) (rel8 : Byte) :
    decodedInstr p0 (.ofCond c rel8) = recordJcc c p0 rel8 := by
  cases c <;> rfl

theorem length_ofCond (c : Cond) (rel8 : Byte) : (Instr.ofCond c rel8).length = 2 := by
  cases c <;> rfl

/-- The s bit is clear exactly when `b0[1]` is 0 (R88). -/
theorem not_sBit : ∀ b : Byte, (!sBit b) = (b.extractLsb' 1 1 == 0#1) := by
  decide

/-! ## The record from the bytes, family by family -/

section
variable {b0 : Byte} {tail rest : List Byte} {i : Instr}

/-- `MOVI_REG`: the register and the width stand in the leading byte (R85). -/
theorem decodedInstr_of_moviReg (p0 : Pos) (h : decodeMoviReg b0 tail = .instr i rest) :
    ∃ imm, ImmediateAt (widthAt b0 3 == .word) tail rest imm ∧
      decodedInstr p0 i = recordImm .moviReg .mov p0 i.length (widthAt b0 3)
        (.register (widthAt b0 3) (b0.extractLsb' 0 3)) imm := by
  obtain ⟨imm, himm, rfl⟩ := decodeMoviReg_eq_instr_iff.mp h
  exact ⟨imm, fetchImm_immediateAt himm, rfl⟩

/-- `MOVI_RM`: the reg field is 000 and the immediate follows the operand (R89). -/
theorem decodedInstr_of_moviRm (p0 : Pos) (h : decodeMoviRm b0 tail = .instr i rest) :
    ∃ modrm bytes afterRm op imm, tail = modrm :: bytes ∧ modrm.extractLsb' 3 3 = 0b000#3 ∧
      OperandAt (widthAt b0 0) modrm bytes afterRm op ∧ ImmediateAt (widthAt b0 0 == .word) afterRm rest imm ∧
      decodedInstr p0 i = recordImm .moviRm .mov p0 i.length (widthAt b0 0) op imm := by
  obtain ⟨modrm, bytes, rm, afterRm, imm, rfl, hreg, hrm, himm, rfl⟩ := decodeMoviRm_eq_instr_iff.mp h
  exact ⟨modrm, bytes, afterRm, _, imm, rfl, hreg, decodeOperand_operandAt hrm, fetchImm_immediateAt himm, rfl⟩

/-- `IMM_RM`: the reg field is the secondary opcode, and the s bit sizes the immediate (R86-R88). -/
theorem decodedInstr_of_immRm (p0 : Pos) (h : decodeImmRm b0 tail = .instr i rest) :
    ∃ modrm bytes afterRm op imm mn, tail = modrm :: bytes ∧
      (modrm.extractLsb' 3 3, mn) ∈ [(0b000#3, Mnemonic.add), (0b101#3, .sub), (0b111#3, .cmp)] ∧
      OperandAt (widthAt b0 0) modrm bytes afterRm op ∧
      ImmediateAt (b0.extractLsb' 1 1 == 0#1 && widthAt b0 0 == .word) afterRm rest imm ∧
      decodedInstr p0 i = recordImm .immRm mn p0 i.length (widthAt b0 0) op imm := by
  obtain ⟨modrm, bytes, op, rm, afterRm, imm, rfl, hop, hrm, himm, rfl⟩ := decodeImmRm_eq_instr_iff.mp h
  have hreg : modrm.extractLsb' 3 3 = op.subOpcode := subOp80_eq_some _ _ hop
  refine ⟨modrm, bytes, afterRm, _, imm, aluMnemonic op, rfl, ?_, decodeOperand_operandAt hrm, ?_,
    decodedInstr_ofImmRm ..⟩
  · rw [hreg]
    exact subOpcode_mem op
  · rw [← not_sBit]
    exact fetchImmRm_immediateAt himm

/-- `RM_REG`: the direction bit says which of the two operands is the destination (R90, R91). -/
theorem decodedInstr_of_rmReg {op : RmRegOp} (p0 : Pos) (h : decodeRmReg op b0 tail = .instr i rest) :
    ∃ modrm bytes rm, tail = modrm :: bytes ∧
      OperandAt (widthAt b0 0) modrm bytes rest (rmOperand (widthAt b0 0) rm) ∧
      decodedInstr p0 i = recordRmReg (rmRegMnemonic op) p0 i.length (.ofBit (b0.extractLsb' 1 1)) (widthAt b0 0) rm
        (modrm.extractLsb' 3 3) := by
  obtain ⟨modrm, bytes, rm, rfl, hrm, rfl⟩ := decodeRmReg_eq_instr_iff.mp h
  exact ⟨modrm, bytes, rm, rfl, decodeOperand_operandAt hrm, decodedInstr_ofRmReg ..⟩

/-- `ACC_IMM`: the destination is slot 0 at the width of the leading byte (R92). -/
theorem decodedInstr_of_accImm {op : AluOp} (p0 : Pos) (h : decodeAccImm op b0 tail = .instr i rest) :
    ∃ imm, ImmediateAt (widthAt b0 0 == .word) tail rest imm ∧
      decodedInstr p0 i = recordImm .accImm (aluMnemonic op) p0 i.length (widthAt b0 0) (accumulator (widthAt b0 0))
        imm := by
  obtain ⟨imm, himm, rfl⟩ := decodeAccImm_eq_instr_iff.mp h
  exact ⟨imm, fetchImm_immediateAt himm, decodedInstr_ofAccImm ..⟩

/-- `JCC`: one displacement byte and no operand (R93). -/
theorem decodedInstr_of_jcc {c : Cond} (p0 : Pos) (h : decodeJcc c tail = .instr i rest) :
    ∃ rel8, tail = rel8 :: rest ∧ i.length = 2 ∧ decodedInstr p0 i = recordJcc c p0 rel8 := by
  obtain ⟨rel8, rfl, rfl⟩ := decodeJcc_eq_instr_iff.mp h
  exact ⟨rel8, rfl, length_ofCond c rel8, decodedInstr_ofCond p0 c rel8⟩

end

/-- Settles O54: the bits of the leading byte select the family, whose rule reads the fields. -/
theorem decodedFieldsOfEachFamily : Obligations.DecodedFieldsOfEachFamily := by
  intro p0 b0 tail rest i h
  have hfamily : ∀ {e}, dispatch b0 = some e → decodeEntry e b0 tail = .instr i rest :=
    fun he => (decode_of_dispatch he tail).symm.trans h
  refine ⟨i.length, length_add_of_decode h, fun hb => ?_, fun hb => ?_, fun hb => ?_, fun mn hb => ?_,
    fun mn hb => ?_, fun c hb => ?_⟩
  · exact decodedInstr_of_moviReg p0 (hfamily (dispatch_of_moviReg_bits hb))
  · exact decodedInstr_of_moviRm p0 (hfamily (dispatch_of_moviRm_bits hb))
  · exact decodedInstr_of_immRm p0 (hfamily (dispatch_of_immRm_bits hb))
  · obtain ⟨op, hop, rfl⟩ := rmRegOpcode_of_mem hb
    obtain ⟨modrm, bytes, rm, htail, hrm, hi⟩ := decodedInstr_of_rmReg p0 (hfamily (dispatch_of_rmReg_bits hop))
    refine ⟨modrm, bytes, _, htail, hrm, fun hd => ?_, fun hd => ?_⟩
    · rw [hi, hd]
      rfl
    · rw [hi, hd]
      rfl
  · obtain ⟨op, hop, rfl⟩ := accOpcode_of_mem hb
    exact decodedInstr_of_accImm p0 (hfamily (dispatch_of_accImm_bits hop))
  · obtain ⟨rel8, htail, hlength, hi⟩ :=
      decodedInstr_of_jcc p0 (hfamily (dispatch_of_mem_transferBytes (b0, c) hb))
    exact ⟨rel8, htail, by rw [hi, hlength]; rfl⟩

end Sys2Proof.Machine
end

section
/-! PROOFS. The instruction cycle: the clean end, the ended core, the instruction at `IP`, and the decode-only mode
(R110-R117, R124). -/

namespace Sys2Proof.Machine

/-! ## The ends of a run (R110, R111) -/

/-- Settles O23, one ended `STATUS` at a time. -/
theorem stepOfEndedCoreFaults : Obligations.StepOfEndedCoreFaults := by
  intro s hended
  cases hs : s.status with
  | running => exact absurd hs hended
  | cleanEnd | truncatedStream | unsupportedEncoding | seekFault => simp only [step, instructionCycle, hs]

/-- At or past the end of the stream no byte is left to fetch (R111). -/
theorem fetchBytes_eq_nil {s : State} (h : s.code.length ≤ s.ip.toNat) : fetchBytes s = [] :=
  List.drop_eq_nil_of_le h

/-- A running core with nothing left to fetch ends its run (R111). -/
theorem step_of_streamEnd {s : State} (hrun : s.status = .running) (h : s.code.length ≤ s.ip.toNat) :
    step s = .next (endRun s) := by
  rw [step_of_running hrun, fetchBytes_eq_nil h]
  rfl

/-- Settles O21: the step ends the run, which reports in simulation mode only. -/
theorem streamEndIsCleanEnd : Obligations.StreamEndIsCleanEnd := by
  intro s hrun hend
  rw [step_of_streamEnd hrun hend]
  constructor
  · intro hsim
    simp only [endRun, hsim, if_true]
    rfl
  · intro hdec
    simp [endRun, hdec]

/-! ## The instruction at `IP` (R112, R113, R115) -/

/-- Settles O19: a running core does what it decoded, and a decoded instruction is executed. -/
theorem stepRunsDecodedInstruction : Obligations.StepRunsDecodedInstruction := by
  intro s i rest hrun hd
  rw [step_of_running hrun, hd]
  rfl

/-- The bytes fetched at `IP` are those that stand there in the code stream (R112). -/
theorem fetchBytes_of_code {s : State} {before bytes after : List Byte} (hcode : s.code = before ++ bytes ++ after)
    (hip : s.ip.toNat = before.length) : fetchBytes s = bytes ++ after := by
  rw [fetchBytes, hcode, hip, List.append_assoc, List.drop_left]

/-- In either mode, an instruction other than `jne` completes, right after its bytes (R115-R118). -/
theorem exec_advances {i : Instr} (hi : ∀ rel8, i ≠ .jne rel8) (s : State) :
    ∃ t, exec i s = .next t ∧ t.ip = ipAfter s i.length := by
  obtain ⟨body, hexec, hbody⟩ := exec_eq_complete hi s
  rw [hexec]
  cases hs : s.simulate with
  | true => exact ⟨_, complete_sim hs, (hbody _).target⟩
  | false => exact ⟨_, complete_decodeOnly hs, rfl⟩

/-- Settles O20: the encoding at `IP` decodes back to its instruction, and moving past it inside the stream does not
wrap `IP`. -/
theorem stepRunsEncodedInstructionAtIp : Obligations.StepRunsEncodedInstructionAtIp := by
  intro s i before after hrun hwf hcode hip hfit
  have hdecode : decode (fetchBytes s) = .instr i after := by
    rw [fetchBytes_of_code hcode hip]
    exact decodeInvertsEncode i after hwf
  have hstep : step s = exec i s := stepRunsDecodedInstruction s i after hrun hdecode
  refine ⟨hstep, fun hi => ?_⟩
  obtain ⟨t, ht, htip⟩ := exec_advances hi s
  refine ⟨t, hstep.trans ht, ?_⟩
  rw [htip, toNat_ipAfter hfit (ip_add_length_le hdecode), hip, encode_length]

/-! ## The decode-only mode (R116, R124) -/

/-- In decode-only mode every instruction, `jne` among them, is committed without `Execute` (R116). -/
theorem exec_decodeOnly (i : Instr) {s : State} (h : s.simulate = false) :
    exec i s = .next (commitDecode i s) := by
  by_cases hi : ∃ rel8, i = .jne rel8
  · obtain ⟨rel8, rfl⟩ := hi
    have hnot : jneTaken s = false := by simp [jneTaken, h]
    simp only [exec, execJne, hnot]
    exact complete_decodeOnly h
  · obtain ⟨body, hexec, -⟩ := exec_eq_complete (fun rel8 hr => hi ⟨rel8, hr⟩) s
    rw [hexec, complete_decodeOnly h]

/-- The decoded record starts where the instruction does (R84). -/
@[simp] theorem decodedInstr_start (p0 : Pos) (i : Instr) : (decodedInstr p0 i).start = p0 := by
  cases i <;> rfl

/-- The decoded record has the length of its instruction (R84, R102). -/
@[simp] theorem decodedInstr_length (p0 : Pos) (i : Instr) : (decodedInstr p0 i).length = i.length := by
  cases i <;> rfl

/-- The bytes of a decode record are the instruction's own in the code stream (R245). -/
theorem decodeRecord_bytes (i : Instr) (s : State) :
    (decodeRecord i s).bytes = (s.code.drop s.ip.toNat).take i.length := by
  simp only [decodeRecord, decodedInstr_length, fetchBytes]

/-- Settles O25: the step is the decode-only commit, which writes `IP` and the trace alone. -/
theorem decodeOnlyModeOnlyAdvances : Obligations.DecodeOnlyModeOnlyAdvances := by
  intro i s hdec
  exact ⟨decodeRecord i s, exec_decodeOnly i hdec, decodedInstr_start s.ip i, decodedInstr_length s.ip i,
    decodeRecord_bytes i s, rfl, rfl, rfl, rfl, rfl, rfl⟩

/-- Settles O26, by the cases of a step: a skip and a decode-only commit move `IP` past at least one byte of the
stream, and the others end the run. -/
theorem decodeOnlyStepsMakeProgress : Obligations.DecodeOnlyStepsMakeProgress := by
  intro s t hdec hfit hstep
  obtain ⟨-, hcases⟩ := step_cases hstep
  rcases hcases with ⟨-, rfl⟩ | ⟨b0, hd, rfl⟩ | ⟨-, rfl⟩ | ⟨-, rfl⟩ | ⟨i, rest, hd, hexec⟩
  · exact .inl (by simp)
  · right
    rw [skip_ip, toNat_ipAfter hfit (ip_lt_of_unrecognised hd)]
    exact Nat.lt_succ_self _
  · exact .inl (by simp)
  · exact .inl (by simp)
  · right
    obtain rfl : commitDecode i s = t := Host.Outcome.next.inj ((exec_decodeOnly i hdec).symm.trans hexec)
    obtain ⟨hlength, -⟩ := i.length_bounds
    rw [commitDecode_ip, toNat_ipAfter hfit (ip_add_length_le hd)]
    omega

end Sys2Proof.Machine
end

section
/-! PROOFS. The MOV family: the value moved, the flags that follow it, and what stays (R130-R134). -/

namespace Sys2Proof.Machine

/-! ## Costs, immediates, register writes and the commit, in the words of the claims -/

/-- The cost of a `RM_REG` form, as Tables 60-1 and 60-2 give it (R236). -/
theorem costRmReg_rmOperand (s : State) (row : BaseCosts) (d : Dir) (w : Width) (rm : Rm) :
    costRmReg s.params.cycTable row d (rmOperand w rm) = RmRegCost s row d rm := by
  cases rm <;> cases d <;> rfl

/-- The cost of an immediate form, as Tables 60-1 and 60-2 give it (R236). -/
theorem costImm_rmOperand (s : State) (row : BaseCosts) (w : Width) (rm : Rm) :
    costImm s.params.cycTable row (rmOperand w rm) = ImmCost s row rm := by
  cases rm <;> rfl

/-- The immediate at width `w` is its low bits (R95). -/
theorem immValue_eq (w : Width) (imm : Word) : immValue w imm = imm.setWidth w.bits := by
  cases w
  · rfl
  · exact (BitVec.setWidth_eq imm).symm

/-- Everything a register write does to the registers and the memory, in any form of the memory (R21, R23). -/
theorem writeOperand_register_wrote (s : State) (w w' : Width) (r : BitVec 3) (v : w.Val) :
    Wrote w (.register w' r) v s (writeOperand s (.register w' r) w v) :=
  ⟨readReg_writeReg_same s w r v, writeReg_sameRegsBut s w r v, memRead_congr (writeReg_mem s w r v)⟩

/-- The commit of a body that stages its writes moves `IP` past the instruction and adds its cost to `CYC` (R118). -/
theorem commitSim_advanced {i : Instr} {s : State} {e : Executed} (h : e.Staged s (ipAfter s i.length)) :
    Advanced i e.cost s (commitSim i s e) :=
  ⟨h.target, rfl, h.inputs, h.status, h.unrec⟩

/-! ## The common body (R130) -/

/-- The flags after a move of `v`: those of `v` for a register destination, those before for a memory destination
(R130, D10). -/
def MoveFlags (w : Width) (dst : Operand) (v : w.Val) (s t : State) : Prop :=
  match dst with
  | .register _ _ => FlagsOfResult w v s t
  | .memory _ => t.flags = s.flags

section
variable {i : Instr} {w : Width} {dst : Operand} {v : w.Val} {cost : Nat} {s : State}

/-- The flag write of a move leaves the registers and the memory as the operand write made them. -/
theorem moveBody_wrote (h : Wrote w dst v s (writeOperand s dst w v)) (p : Pos) :
    Wrote w dst v s (moveBody w dst v cost p s).state := by
  cases dst with
  | register w' r => exact h.congr rfl rfl
  | memory m => exact h

theorem moveBody_moveFlags {p : Pos} {t : State} (h : t.flags = (moveBody w dst v cost p s).state.flags) :
    MoveFlags w dst v s t := by
  cases dst with
  | register w' r => exact flagsOfResult_of_eq (h.trans (by simp [moveBody, Operand.isRegister]))
  | memory m => exact h.trans (writeOperand_flags s (.memory m) w v)

/-- Everything a move does in simulation mode, whatever its operands (R130). -/
theorem complete_moveBody (hsim : s.simulate = true) (hwrote : Wrote w dst v s (writeOperand s dst w v)) :
    ∃ t, complete i (moveBody w dst v cost) s = .next t ∧
      Wrote w dst v s t ∧ MoveFlags w dst v s t ∧ Advanced i cost s t :=
  ⟨_, complete_sim hsim, (moveBody_wrote hwrote _).congr rfl rfl, moveBody_moveFlags rfl,
    commitSim_advanced (moveBody_staged ..)⟩

end

/-! ## The three forms -/

/-- Settles O36: the move of what the source reads. -/
theorem movRmRegEffect : Obligations.MovRmRegEffect := by
  intro d w rm reg s hsim hwf
  rw [← costRmReg_rmOperand s _ d w rm]
  exact complete_moveBody hsim (writeOperand_wrote _ w _ hwf)

/-- Settles O37: the move of the immediate at its width, to a register. -/
theorem movImmRegEffect : Obligations.MovImmRegEffect := by
  intro w reg imm s hsim
  rw [← immValue_eq]
  exact complete_moveBody hsim (writeOperand_register_wrote s w w reg _)

/-- Settles O38: the move of the immediate at its width, and an r/m operand is a register in one form only. -/
theorem movImmRmEffect : Obligations.MovImmRmEffect := by
  intro w rm imm s hsim hwf
  rw [← immValue_eq, ← costImm_rmOperand s _ w rm]
  obtain ⟨t, hexec, hwrote, hflags, hadv⟩ :=
    complete_moveBody hsim (writeOperand_wrote (rmOperand w rm) w (immValue w imm) hwf)
  refine ⟨t, hexec, hwrote, ?_, hadv⟩
  cases rm <;> exact hflags

/-! ## A word immediate from its bytes (R133) -/

/-- The opcode byte of a word move immediate to register (R73). -/
theorem movImmReg_word_opcode : ∀ reg : BitVec 3, (0b1011#4 ++ Width.word.bit ++ reg : Byte) = 0b10111#5 ++ reg := by
  decide

/-- A word move immediate is decoded from its opcode byte and two immediate bytes (R71, R85). -/
theorem decode_movImmReg_word (reg : BitVec 3) (lo hi : Byte) (rest : List Byte) :
    decode ((0b10111#5 ++ reg : Byte) :: lo :: hi :: rest) = .instr (.movImmReg .word reg (le16 lo hi)) rest := by
  have henc : encode (.movImmReg .word reg (le16 lo hi)) = [0b10111#5 ++ reg, lo, hi] := by
    simp [encode, immBytes, wordBytes, movImmReg_word_opcode]
  have h := decode_encode_movImmReg (w := .word) reg (imm := le16 lo hi) rest rfl
  rwa [henc] at h

/-- Settles O39: the bytes decode to the move of O37, and a word register is one slot. -/
theorem movWordImmediateSetsOneSlot : Obligations.MovWordImmediateSetsOneSlot := by
  intro reg lo hi rest s hsim hrun hfetch
  have hdecode : decode (fetchBytes s) = .instr (.movImmReg .word reg (le16 lo hi)) rest := by
    rw [hfetch, decode_movImmReg_word]
  have hstep := stepRunsDecodedInstruction s _ rest hrun hdecode
  obtain ⟨t, hexec, ⟨hslot, hothers, -⟩, -, -⟩ := movImmRegEffect .word reg (le16 lo hi) s hsim
  exact ⟨t, hstep.trans hexec, hslot.trans (BitVec.setWidth_eq _), hothers⟩

end Sys2Proof.Machine
end

section
/-! PROOFS. The ADD, SUB and CMP family: the result modulo 2^w, what a body stages, and the flags (R150-R166). -/

namespace Sys2Proof.Machine

/-! ## Results as unsigned numbers (R95, R151, R152) -/

section
variable (w : Width) (a b : w.Val) (imm : Word)

theorem toNat_immValue : BitVec.toNat (immValue w imm) = imm.toNat % 2 ^ w.bits := by
  rw [immValue_eq, BitVec.toNat_setWidth]

theorem toNat_aluAdd : BitVec.toNat (aluAdd w a b) = (BitVec.toNat a + BitVec.toNat b) % 2 ^ w.bits :=
  BitVec.toNat_add a b

theorem toNat_aluAdd_immValue :
    BitVec.toNat (aluAdd w a (immValue w imm)) = (BitVec.toNat a + imm.toNat) % 2 ^ w.bits := by
  rw [toNat_aluAdd, toNat_immValue, Nat.add_mod_mod]

theorem toNat_aluSub :
    BitVec.toNat (aluSub w a b) = (BitVec.toNat a + (2 ^ w.bits - BitVec.toNat b)) % 2 ^ w.bits :=
  BitVec.toNat_sub' a b

theorem toNat_aluSub_immValue :
    BitVec.toNat (aluSub w a (immValue w imm)) =
      (BitVec.toNat a + (2 ^ w.bits - imm.toNat % 2 ^ w.bits)) % 2 ^ w.bits := by
  rw [toNat_aluSub, toNat_immValue]

end

/-! ## The two bodies (R153, R154) -/

section
variable {i : Instr} {w : Width} {dst : Operand} {r : w.Val} {cost : Nat} {s : State}

/-- `add` and `sub` stage the operand write and, on top of it, the flags of the full-width result. -/
theorem aluBody_state (p : Pos) : (aluBody w dst r cost p s).state = setFlags (writeOperand s dst w r) w r := rfl

/-- The flags are those of the result whatever the destination, in any form of the memory (R153). -/
theorem commitSim_aluBody_flagsOfResult (p : Pos) :
    FlagsOfResult w r s (commitSim i s (aluBody w dst r cost p s)) :=
  flagsOfResult_of_eq (by simp [aluBody_state])

/-- Everything `add` or `sub` does in simulation mode with a result of unsigned value `n`, whatever its operands. -/
theorem complete_aluBody {n : Nat} (hsim : s.simulate = true) (hwrote : Wrote w dst r s (writeOperand s dst w r))
    (hr : BitVec.toNat r = n) :
    ∃ t r', complete i (aluBody w dst r cost) s = .next t ∧ BitVec.toNat r' = n ∧
      Wrote w dst r' s t ∧ FlagsOfResult w r' s t ∧ Advanced i cost s t :=
  ⟨_, r, complete_sim hsim, hr, hwrote.congr rfl rfl, commitSim_aluBody_flagsOfResult _,
    commitSim_advanced (aluBody_staged ..)⟩

/-- Everything `cmp` does in simulation mode with a difference of unsigned value `n`, whatever its operands. -/
theorem complete_cmpBody {n : Nat} (hsim : s.simulate = true) (hr : BitVec.toNat r = n) :
    ∃ t r', complete i (cmpBody w dst r cost) s = .next t ∧ BitVec.toNat r' = n ∧
      SameRegs s t ∧ SameMemory s t ∧ FlagsOfResult w r' s t ∧ Advanced i cost s t :=
  ⟨_, r, complete_sim hsim, hr, wordReg_congr rfl, memRead_congr rfl, flagsOfResult_of_eq rfl,
    commitSim_advanced (cmpBody_staged ..)⟩

/-- In either mode a completed `cmp` writes the flags, `CYC`, `IP` and the trace at most (R116, R165). -/
theorem complete_cmpBody_frame :
    ∃ t, complete i (cmpBody w dst r cost) s = .next t ∧ t.regs = s.regs ∧ t.mem = s.mem ∧
      t = { s with flags := t.flags, cyc := t.cyc, ip := t.ip, trace := t.trace } := by
  rcases Bool.eq_false_or_eq_true s.simulate with hs | hs
  · exact ⟨_, complete_sim hs, rfl, rfl, rfl⟩
  · exact ⟨_, complete_decodeOnly hs, rfl, rfl, rfl⟩

end

/-! ## The effects, form by form (R156-R165) -/

/-- Settles O40: each form is the common body on a sum, at the cost of its operands. -/
theorem addEffect : Obligations.AddEffect := by
  refine ⟨fun d w rm reg s hsim hwf => ?_, fun sx w rm imm s hsim hwf => ?_, fun w imm s hsim => ?_⟩
  · rw [← costRmReg_rmOperand s _ d w rm]
    exact complete_aluBody hsim (writeOperand_wrote _ w _ hwf) (toNat_aluAdd w _ _)
  · rw [← costImm_rmOperand s _ w rm]
    exact complete_aluBody hsim (writeOperand_wrote _ w _ hwf) (toNat_aluAdd_immValue w _ imm)
  · exact complete_aluBody hsim (writeOperand_register_wrote s w w 0 _) (toNat_aluAdd_immValue w _ imm)

/-- Settles O41: each form is the common body on a difference, at the cost of its operands. -/
theorem subEffect : Obligations.SubEffect := by
  refine ⟨fun d w rm reg s hsim hwf => ?_, fun sx w rm imm s hsim hwf => ?_, fun w imm s hsim => ?_⟩
  · rw [← costRmReg_rmOperand s _ d w rm]
    exact complete_aluBody hsim (writeOperand_wrote _ w _ hwf) (toNat_aluSub w _ _)
  · rw [← costImm_rmOperand s _ w rm]
    exact complete_aluBody hsim (writeOperand_wrote _ w _ hwf) (toNat_aluSub_immValue w _ imm)
  · exact complete_aluBody hsim (writeOperand_register_wrote s w w 0 _) (toNat_aluSub_immValue w _ imm)

/-- Settles O42: each form is the body of `cmp` on a difference, at the cost of its operands. -/
theorem cmpEffect : Obligations.CmpEffect := by
  refine ⟨fun d w rm reg s hsim => ?_, fun sx w rm imm s hsim => ?_, fun w imm s hsim => ?_⟩
  · rw [← costRmReg_rmOperand s _ d w rm]
    exact complete_cmpBody hsim (toNat_aluSub w _ _)
  · rw [← costImm_rmOperand s _ w rm]
    exact complete_cmpBody hsim (toNat_aluSub_immValue w _ imm)
  · exact complete_cmpBody hsim (toNat_aluSub_immValue w _ imm)

/-- Settles O43: every form completes with the body of `cmp`, whose frame holds in either mode. -/
theorem cmpNeverMutates : Obligations.CmpNeverMutates := by
  rintro i s (⟨d, w, rm, reg, rfl⟩ | ⟨sx, w, rm, imm, rfl⟩ | ⟨w, imm, rfl⟩)
  · exact complete_cmpBody_frame
  · exact complete_cmpBody_frame
  · exact complete_cmpBody_frame

/-! ## The flags of a word result, read as a signed integer (R166) -/

/-- `ZF` says that `v` is 0 and `SF` that it is negative. -/
def SignedFlags (v : Word) (t : State) : Prop :=
  (t.flags.zf = true ↔ v.toInt = 0) ∧ (t.flags.sf = true ↔ v.toInt < 0)

section
variable {i : Instr} {w : Width} {j : BitVec 3} {dst : Operand} {v : Word} {cost : Nat} {s t : State}

/-- The flags of a word result, in either reading: it is 0 as a bit pattern when it is 0 as an integer (R27). -/
theorem FlagsOfResult.signedFlags (h : FlagsOfResult .word v s t) : SignedFlags v t := by
  obtain ⟨hzero, hsign⟩ := h
  exact ⟨hzero.trans BitVec.toInt_inj.symm, hsign⟩

/-- After a word result was written to a register, the flags are those of what the register holds. -/
theorem signedFlags_wordReg (hwrote : Wrote .word (.register w j) v s t) (hflags : FlagsOfResult .word v s t) :
    SignedFlags (wordReg t j) t := by
  obtain ⟨hreg, -, -⟩ := hwrote
  obtain rfl : wordReg t j = v := hreg
  exact hflags.signedFlags

/-- A word `mov` to a register sets the flags of what the register holds afterwards (R130). -/
theorem complete_moveBody_signedFlags (hsim : s.simulate = true) :
    ∃ t, complete i (moveBody .word (.register w j) v cost) s = .next t ∧ SignedFlags (wordReg t j) t := by
  obtain ⟨t, hexec, hwrote, hflags, -⟩ :=
    complete_moveBody (i := i) (cost := cost) hsim (writeOperand_register_wrote s .word w j v)
  exact ⟨t, hexec, signedFlags_wordReg hwrote hflags⟩

/-- A word `add` or `sub` sets the flags of its result, whatever the destination stores of it (R153, R154). -/
theorem complete_aluBody_signedFlags (hsim : s.simulate = true) :
    ∃ t, complete i (aluBody .word dst v cost) s = .next t ∧ SignedFlags v t :=
  ⟨_, complete_sim hsim, (commitSim_aluBody_flagsOfResult _).signedFlags⟩

end

/-- A word `mov` between register/memory and register completes, and where its destination is a register the flags are
those of what it holds afterwards (R130, R131). -/
theorem exec_movRmReg_signedFlags (d : Dir) (rm : Rm) (reg : BitVec 3) {s : State} (hsim : s.simulate = true) :
    ∃ t, exec (.movRmReg d .word rm reg) s = .next t ∧
      ∀ j, rmRegDst d .word rm reg = .register .word j → SignedFlags (wordReg t j) t := by
  simp only [exec, execMovRmReg]
  cases rmRegDst d .word rm reg with
  | register w j =>
    obtain ⟨t, hexec, hflags⟩ := complete_moveBody_signedFlags hsim
    refine ⟨t, hexec, fun k hk => ?_⟩
    obtain ⟨-, rfl⟩ := Operand.register.inj hk
    exact hflags
  | memory m => exact ⟨_, complete_sim hsim, nofun⟩

/-- Settles O44: a `mov` or an accumulator form leaves its result in the register, and the other forms set the flags of
the result itself. -/
theorem wordFlagLaw : Obligations.WordFlagLaw := by
  intro s hsim
  obtain ⟨-, -, haddAcc⟩ := addEffect
  obtain ⟨-, -, hsubAcc⟩ := subEffect
  refine ⟨fun d rm reg => exec_movRmReg_signedFlags d rm reg hsim, fun reg imm => ?_, fun reg imm => ?_,
    fun d rm reg => ?_, fun sx rm imm => ?_, fun imm => ?_, fun d rm reg => ?_, fun sx rm imm => ?_, fun imm => ?_⟩
  · exact complete_moveBody_signedFlags hsim
  · exact complete_moveBody_signedFlags hsim
  · exact complete_aluBody_signedFlags hsim
  · exact complete_aluBody_signedFlags hsim
  · obtain ⟨t, r, hexec, -, hwrote, hflags, -⟩ := haddAcc .word imm s hsim
    exact ⟨t, hexec, signedFlags_wordReg hwrote hflags⟩
  · exact complete_aluBody_signedFlags hsim
  · exact complete_aluBody_signedFlags hsim
  · obtain ⟨t, r, hexec, -, hwrote, hflags, -⟩ := hsubAcc .word imm s hsim
    exact ⟨t, hexec, signedFlags_wordReg hwrote hflags⟩

end Sys2Proof.Machine
end

section
/-! PROOFS. The conditional transfers: the 19 that only advance, the three outcomes of `jne`, and who redirects `IP`
(R180-R207). -/

namespace Sys2Proof.Machine

/-! ## The 19 that only advance (R181, R182) -/

/-- Each of the 19 is two bytes long and completes with the body they share (R185). -/
theorem exec_of_mem_otherTransfers {rel8 : Byte} {i : Instr} (hi : i ∈ otherTransfers rel8) (s : State) :
    exec i s = complete i fallThroughBody s ∧ i.length = 2 := by
  cases i with
  | movRmReg | movImmReg | movImmRm | addRmReg | addImmRm | addImmAcc | subRmReg | subImmRm | subImmAcc
  | cmpRmReg | cmpImmRm | cmpImmAcc | jne => simp [otherTransfers] at hi
  | je | jl | jle | jb | jbe | jp | jo | js | jnl | jg | jnb | ja | jnp | jno | jns | loop | loopz | loopnz | jcxz =>
    exact ⟨rfl, rfl⟩

/-- Settles O46: the shared body stages no write, and its commit moves `IP` by the two bytes. -/
theorem otherTransfersOnlyAdvance : Obligations.OtherTransfersOnlyAdvance := by
  intro rel8 i s hi hsim
  obtain ⟨hexec, hlength⟩ := exec_of_mem_otherTransfers hi s
  obtain ⟨hip, hcyc, hcontrol⟩ :=
    commitSim_advanced (i := i) (fallThroughBody_staged (ipAfter s i.length) s)
  have hnext : ipAfter s i.length = s.ip + 2 := by simp [ipAfter, hlength]
  exact ⟨_, hexec.trans (complete_sim hsim), rfl, rfl, rfl, hip.trans hnext, hcyc, hcontrol⟩

/-! ## The three outcomes of `jne` in simulation mode (R183, R184, R195) -/

section
variable {rel8 : Byte} {s : State}

theorem exec_jne_of_zf_set (hzf : s.flags.zf = true) :
    exec (.jne rel8) s = complete (.jne rel8) notTakenBody s := by
  simpa [jneTaken, hzf] using execJne_cases rel8 s

theorem exec_jne_of_zf_clear (hsim : s.simulate = true) (hzf : s.flags.zf = false) (h : 0 ≤ jumpTarget s rel8) :
    exec (.jne rel8) s = complete (.jne rel8) (takenBody (jumpTarget s rel8)) s := by
  simpa [jneTaken, hsim, hzf, h, not_lt.mpr h] using execJne_cases rel8 s

theorem exec_jne_below_start (hsim : s.simulate = true) (hzf : s.flags.zf = false) (h : jumpTarget s rel8 < 0) :
    exec (.jne rel8) s = raise (.seekFault s.ip (jumpTarget s rel8)) s := by
  simpa [jneTaken, hsim, hzf, h, not_le.mpr h] using execJne_cases rel8 s

end

/-- Settles O47: the taken body stages no write, and a target in the range of `IP` is stored as it is. -/
theorem jneJumpsWhenZeroFlagIsClear : Obligations.JneJumpsWhenZeroFlagIsClear := by
  intro rel8 s hsim hzf hlow hhigh
  exact ⟨_, (exec_jne_of_zf_clear hsim hzf hlow).trans (complete_sim hsim), toNat_ofInt_of_range hlow hhigh,
    rfl, rfl, rfl, rfl, ⟨rfl, rfl, rfl⟩, rfl, rfl⟩

/-- Settles O48: the body that is not taken stages no write, and its commit moves past the instruction. -/
theorem jneFallsThroughWhenZeroFlagIsSet : Obligations.JneFallsThroughWhenZeroFlagIsSet := by
  intro rel8 s hsim hzf
  exact ⟨_, (exec_jne_of_zf_set hzf).trans (complete_sim hsim), rfl, rfl, rfl,
    commitSim_advanced (notTakenBody_staged ..)⟩

/-- Settles O49: `jne` raises `SeekFault`, and a halt changes `STATUS` alone. -/
theorem jneBelowStreamStartHalts : Obligations.JneBelowStreamStartHalts := by
  intro rel8 s hsim hzf hneg
  exact ⟨_, exec_jne_below_start hsim hzf hneg, rfl⟩

/-! ## Who redirects `IP` (R181) -/

/-- Settles O50, by the cases of `exec`: `jne`'s halt and jump need `ZF = 0`, and a body that stages its writes keeps
the next position it was handed. -/
theorem onlyJneRedirects : Obligations.OnlyJneRedirects := by
  intro i s hsim
  refine ⟨fun t hexec hip => ?_, fun hi => exec_advances hi s⟩
  rcases exec_next_cases hexec with
    ⟨rel8, hi, -, hzf, -⟩ | ⟨rel8, hi, -, hzf, -⟩ | ⟨e, -, -, hstaged, rfl⟩ | ⟨hdec, -⟩
  · exact ⟨rel8, hi, hzf⟩
  · exact ⟨rel8, hi, hzf⟩
  · exact absurd hstaged.target hip
  · simp [hsim] at hdec

end Sys2Proof.Machine
end

section
/-! PROOFS. A cut instruction: what the decoder answers on a proper prefix of an encoding, and the step on it (R72,
R222). -/

namespace Sys2Proof

/-- A family rule runs out of bytes, reads an instruction, or finds a secondary field unsupported; the last it does
from the ModRM byte alone, so whatever follows the bytes (R87, R89, R99). -/
theorem decodeEntry_cases (e : Entry) (b0 : Byte) (bytes : List Byte) :
    decodeEntry e b0 bytes = .truncated ∨ (∃ i rest, decodeEntry e b0 bytes = .instr i rest) ∨
      ∀ more, decodeEntry e b0 (bytes ++ more) = .unsupported := by
  cases e with
  | jcc c =>
    cases bytes with
    | nil => exact .inl rfl
    | cons rel8 rest => exact .inr (.inl ⟨_, rest, rfl⟩)
  | moviReg =>
    cases himm : fetchImm (.ofBit (bit3 b0)) bytes <;> simp [decodeEntry, decodeMoviReg, himm]
  | accImm op =>
    cases himm : fetchImm (.ofBit (bit0 b0)) bytes <;> simp [decodeEntry, decodeAccImm, himm]
  | rmReg op =>
    cases bytes with
    | nil => exact .inl rfl
    | cons modrm tail =>
      cases hrm : decodeOperand (modField modrm) (rmField modrm) tail <;>
        simp [decodeEntry, decodeRmReg, fetch8, hrm]
  | immRm =>
    cases bytes with
    | nil => exact .inl rfl
    | cons modrm tail =>
      cases hop : subOp80 (regField modrm) with
      | none => simp [decodeEntry, decodeImmRm, fetch8, hop]
      | some op =>
        cases hrm : decodeOperand (modField modrm) (rmField modrm) tail with
        | none => simp [decodeEntry, decodeImmRm, fetch8, hop, hrm]
        | some p =>
          cases himm : fetchImmRm (sBit b0) (.ofBit (bit0 b0)) p.2 <;>
            simp [decodeEntry, decodeImmRm, fetch8, hop, hrm, himm]
  | moviRm =>
    cases bytes with
    | nil => exact .inl rfl
    | cons modrm tail =>
      by_cases hreg : regField modrm = 0b000#3
      · cases hrm : decodeOperand (modField modrm) (rmField modrm) tail with
        | none => simp [decodeEntry, decodeMoviRm, fetch8, hreg, hrm]
        | some p =>
          cases himm : fetchImm (.ofBit (bit0 b0)) p.2 <;>
            simp [decodeEntry, decodeMoviRm, fetch8, hreg, hrm, himm]
      · simp [decodeEntry, decodeMoviRm, fetch8, hreg]

/-- Bytes that decode to an instruction decode to it whatever follows them (R103). -/
theorem decode_append_of_instr {bytes rest : List Byte} {i : Instr} (h : decode bytes = .instr i rest)
    (more : List Byte) : decode (bytes ++ more) = .instr i (rest ++ more) := by
  obtain ⟨hwf, hbytes⟩ := decode_eq_instr h
  rw [← hbytes, List.append_assoc]
  exact decodeInvertsEncode i (rest ++ more) hwf

/-- A proper nonempty prefix of an encoding runs out of bytes: if it decoded to an instruction or were unsupported,
the whole encoding would decode so too (R72, R222). -/
theorem decode_of_cut_encoding {i : Instr} {cut missing : List Byte} (hwf : i.wf = true)
    (henc : encode i = cut ++ missing) (hcut : cut ≠ []) (hmissing : missing ≠ []) : decode cut = .truncated := by
  have hwhole : decode (cut ++ missing) = .instr i [] := by
    simpa [henc] using decodeInvertsEncode i [] hwf
  match cut, hcut with
  | b0 :: tail, _ =>
    cases he : dispatch b0 with
    | none => simp [decode, he] at hwhole
    | some e =>
      rcases decodeEntry_cases e b0 tail with h | ⟨j, rest, h⟩ | h
      · rw [decode_of_dispatch he, h]
      · have hj := decode_append_of_instr ((decode_of_dispatch he tail).trans h) missing
        rw [hwhole] at hj
        simp [hmissing] at hj
      · rw [List.cons_append, decode_of_dispatch he, h missing] at hwhole
        cases hwhole

end Sys2Proof

namespace Sys2Proof.Machine

/-- Settles O16: the first bytes of an encoding are a proper nonempty prefix of it, and truncated bytes halt the
core. -/
theorem truncatedInstructionHalts : Obligations.TruncatedInstructionHalts := by
  intro i k s hwf hpos hlt hrun hfetch
  have hlength := encode_length i
  have hcut : decode (fetchBytes s) = .truncated := by
    rw [hfetch]
    refine decode_of_cut_encoding hwf (List.take_append_drop k (encode i)).symm ?_ ?_
    · rw [← List.length_pos_iff, List.length_take]
      omega
    · rw [← List.length_pos_iff, List.length_drop]
      omega
  exact ⟨_, by rw [step_of_running hrun, hcut]; rfl, rfl⟩

end Sys2Proof.Machine
end

section
/-! PROOFS. The ends of a step and its records: the fatal halts, the counters against the trace, and the record of an
executed instruction (R220-R249). -/

namespace Sys2Proof.Machine

/-! ## The ended run (R227) -/

/-- Settles O22: an ended core faults, which is no next state, and a launch starts in `RUNNING`. -/
theorem noStepOnceEnded : Obligations.NoStepOnceEnded := by
  refine ⟨fun s t hended hstep => ?_, launch_status⟩
  rw [stepOfEndedCoreFaults s hended] at hstep
  cases hstep

/-! ## The default costs (R238) -/

/-- Settles O10, cell by cell: neither an address nor a displacement enters the cost. -/
theorem defaultAddressCosts : Obligations.DefaultAddressCosts :=
  ⟨fun _ => rfl, rfl, fun _ => rfl⟩

/-! ## Halt or commit -/

/-- A taken jump stages no write, and hands the commit its target (R195). -/
theorem takenBody_staged (target : Int) (p : Pos) (s : State) :
    (takenBody target p s).Staged s (BitVec.ofInt 32 target) := by
  constructor <;> simp [takenBody, SameInputs]

/-- An instruction halts as a `jne`, commits a body that stages its writes, or is committed in decode-only mode. -/
theorem exec_halt_or_commit {i : Instr} {s t : State} (h : exec i s = .next t) :
    (∃ rel8, i = .jne rel8 ∧ t = { s with status := .seekFault s.ip (jumpTarget s rel8) }) ∨
    (∃ e p, s.simulate = true ∧ e.Staged s p ∧ t = commitSim i s e) ∨
    (s.simulate = false ∧ t = commitDecode i s) := by
  rcases exec_next_cases h with
    ⟨rel8, hi, -, -, -, rfl⟩ | ⟨rel8, -, hs, -, -, rfl⟩ | ⟨e, hs, -, he, rfl⟩ | hdec
  · exact .inl ⟨rel8, hi, rfl⟩
  · exact .inr (.inl ⟨_, _, hs, takenBody_staged _ _ s, rfl⟩)
  · exact .inr (.inl ⟨e, _, hs, he, rfl⟩)
  · exact .inr (.inr hdec)

/-- Settles O24, by the cases of a step: the clean end is excluded, a skip and a commit keep `STATUS`, and each halt
writes `STATUS` alone. -/
theorem fatalHaltCommitsNothing : Obligations.FatalHaltCommitsNothing := by
  intro s t hstep hrun hclean
  obtain ⟨hs, hcases⟩ := step_cases hstep
  rcases hcases with ⟨-, rfl⟩ | ⟨b0, -, rfl⟩ | ⟨hd, rfl⟩ | ⟨hd, rfl⟩ | ⟨i, rest, hd, hexec⟩
  · exact absurd (endRun_status s) hclean
  · exact absurd hs hrun
  · exact ⟨rfl, .inl ⟨rfl, hd⟩⟩
  · exact ⟨rfl, .inr (.inl ⟨rfl, hd⟩)⟩
  · rcases exec_halt_or_commit hexec with ⟨rel8, rfl, rfl⟩ | ⟨e, p, -, he, rfl⟩ | ⟨-, rfl⟩
    · exact ⟨rfl, .inr (.inr ⟨rfl, rel8, rest, hd⟩)⟩
    · exact absurd (he.status.trans hs) hrun
    · exact absurd hs hrun

/-! ## The counters and the trace (R34, R235, R240, R247) -/

/-- From `s` to `t` the trace gained the items `new`, at most one, and each counter what they add to it. -/
structure Recorded (s t : State) (new : List TraceItem) : Prop where
  trace : t.trace = s.trace ++ new
  atMostOne : new.length ≤ 1
  cycles : t.cyc = s.cyc + BitVec.ofNat 64 (new.map TraceItem.cost).sum
  skipped : t.unrec = s.unrec + BitVec.ofNat 32 (new.map TraceItem.skips).sum

/-- A state that keeps the trace and the counters recorded nothing. -/
theorem recorded_nothing {s t : State} (htrace : t.trace = s.trace) (hcyc : t.cyc = s.cyc)
    (hunrec : t.unrec = s.unrec) : Recorded s t [] :=
  ⟨by simp [htrace], by simp, by simp [hcyc], by simp [hunrec]⟩

/-- The clean end records the final report in simulation mode only, at no cost (R111, R226). -/
theorem endRun_recorded (s : State) : ∃ new, Recorded s (endRun s) new := by
  cases hs : s.simulate with
  | true =>
    refine ⟨[.finalReport s.regs s.ip s.flags.view], ?_, by simp, by simp [TraceItem.cost],
      by simp [TraceItem.skips]⟩
    simp [endRun, hs]
  | false => exact ⟨[], recorded_nothing (by simp [endRun, hs]) (endRun_cyc s) (endRun_unrec s)⟩

/-- A skip records its event, which counts one and costs nothing (R83, R247). -/
theorem skip_recorded (b0 : Byte) (s : State) :
    Recorded s (skip b0 s) [.unrecognised s.ip b0 (s.unrec + 1)] :=
  ⟨rfl, by simp, by simp [TraceItem.cost], by simp [TraceItem.skips]⟩

/-- A commit in simulation mode records the instruction, at the cost the body gave (R118, R235). -/
theorem commitSim_recorded (i : Instr) {s : State} {e : Executed} {p : Pos} (h : e.Staged s p) :
    Recorded s (commitSim i s e) [.simRecord (simRecord i s e)] :=
  ⟨by simp [h.trace], by simp, by simp [TraceItem.cost, simRecord], by simp [TraceItem.skips, h.unrec]⟩

/-- A decode-only commit records the decoded instruction, at no cost (R116). -/
theorem commitDecode_recorded (i : Instr) (s : State) :
    Recorded s (commitDecode i s) [.decodeRecord (decodeRecord i s)] :=
  ⟨rfl, by simp, by simp [TraceItem.cost], by simp [TraceItem.skips]⟩

/-- Every instruction records at most one item: none when it halts, and otherwise the record of its commit. -/
theorem exec_recorded {i : Instr} {s t : State} (h : exec i s = .next t) : ∃ new, Recorded s t new := by
  rcases exec_halt_or_commit h with ⟨rel8, -, rfl⟩ | ⟨e, p, -, he, rfl⟩ | ⟨-, rfl⟩
  · exact ⟨[], recorded_nothing rfl rfl rfl⟩
  · exact ⟨_, commitSim_recorded i he⟩
  · exact ⟨_, commitDecode_recorded i s⟩

/-- Every step records at most one item, and moves the counters by what it adds to them. -/
theorem step_recorded {s t : State} (h : step s = .next t) : ∃ new, Recorded s t new := by
  obtain ⟨-, hcases⟩ := step_cases h
  rcases hcases with ⟨-, rfl⟩ | ⟨b0, -, rfl⟩ | ⟨-, rfl⟩ | ⟨-, rfl⟩ | ⟨i, rest, -, hexec⟩
  · exact endRun_recorded s
  · exact ⟨_, skip_recorded b0 s⟩
  · exact ⟨[], recorded_nothing rfl rfl rfl⟩
  · exact ⟨[], recorded_nothing rfl rfl rfl⟩
  · exact exec_recorded hexec

/-- What a step records keeps the counters equal to the sums over the trace (R34, R240). -/
theorem State.CountersMatchTrace.of_recorded {s t : State} {new : List TraceItem} (h : s.CountersMatchTrace)
    (hnew : Recorded s t new) : t.CountersMatchTrace := by
  obtain ⟨hcyc, hunrec⟩ := h
  obtain ⟨htrace, -, hcyc', hunrec'⟩ := hnew
  constructor
  · rw [hcyc', hcyc, htrace, List.map_append, List.sum_append, BitVec.ofNat_add]
  · rw [hunrec', hunrec, htrace, List.map_append, List.sum_append, BitVec.ofNat_add]

/-- Settles O31: a step moves each counter by what its record adds to it, and the sum over the trace grows by the
same. -/
theorem stepKeepsCountersEqualToTrace : Obligations.StepKeepsCountersEqualToTrace := by
  intro s t h hstep
  obtain ⟨new, hnew⟩ := step_recorded hstep
  exact h.of_recorded hnew

/-- Adding a number below the wrap does not decrease a counter. -/
theorem toNat_le_toNat_add_ofNat {x : BitVec 64} {n : Nat} (h : x.toNat + n < 2 ^ 64) :
    x.toNat ≤ (x + BitVec.ofNat 64 n).toNat := by
  simp only [BitVec.toNat_add, BitVec.toNat_ofNat]
  omega

/-- Settles O32: what a step records is at most one item, and `CYC` grows by its cost. -/
theorem traceGrowsByAtMostOneRecord : Obligations.TraceGrowsByAtMostOneRecord := by
  intro s t hstep
  obtain ⟨new, htrace, hone, hcyc, -⟩ := step_recorded hstep
  refine ⟨new, htrace, hone, hcyc, fun hfit => ?_⟩
  rw [hcyc]
  exact toNat_le_toNat_add_ofNat hfit

/-! ## The record of an executed instruction (R245, R248) -/

/-- Settles O52: with `STATUS` still `RUNNING` the instruction did not halt, so it committed the record of its body. -/
theorem executedInstructionEmitsItsRecord : Obligations.ExecutedInstructionEmitsItsRecord := by
  intro i s t hsim hexec _ hrun
  rcases exec_halt_or_commit hexec with ⟨rel8, -, rfl⟩ | ⟨e, p, -, he, rfl⟩ | ⟨hdec, -⟩
  · cases hrun
  · exact ⟨simRecord i s e, (commitSim_recorded i he).trace, decodedInstr_start s.ip i, decodedInstr_length s.ip i,
      decodeRecord_bytes i s, rfl, rfl, rfl, rfl, rfl, rfl, rfl, rfl, rfl, rfl, rfl, rfl⟩
  · simp [hsim] at hdec

/-! ## The recorded values (R246) -/

/-- The values are those of the destination of `di`, read in `s` and in `t`; without a destination there are none. -/
def DestinationValues (di : DecodedInstr) (s t : State) (old new : Option Value) : Prop :=
  match di.width, di.dst with
  | some w, some dst =>
    old = some (recordValue w (readOperand s dst w)) ∧ new = some (recordValue w (readOperand t dst w)) ∧
      (di.mnemonic = .cmp → new = old)
  | _, _ => old = none ∧ new = none

section
variable {di : DecodedInstr} {w : Width} {dst : Operand} {v : w.Val} {cost : Nat} {p : Pos} {s t u : State}
  {old new : Option Value}

theorem destinationValues_of_destination (hw : di.width = some w) (hdst : di.dst = some dst)
    (hold : old = some (recordValue w (readOperand s dst w))) (hnew : new = some (recordValue w (readOperand t dst w)))
    (hcmp : di.mnemonic = .cmp → new = old) : DestinationValues di s t old new := by
  simp only [DestinationValues, hw, hdst]
  exact ⟨hold, hnew, hcmp⟩

/-- The values after a step depend on the registers, the memory and the parameters alone (R60). -/
theorem DestinationValues.congr (h : DestinationValues di s t old new) (hr : u.regs = t.regs) (hm : u.mem = t.mem)
    (hp : u.params = t.params) : DestinationValues di s u old new := by
  simpa only [DestinationValues, readOperand_congr hr hm hp] using h

/-- The new value a body gives is its destination read back (R246, D19). -/
theorem readOperand_writeOperand (s : State) (dst : Operand) (w : Width) (v : w.Val) :
    readOperand (writeOperand s dst w v) dst w = writtenValue (writeOperand s dst w v) dst w v := by
  cases dst with
  | register w' r => exact readReg_writeReg_same s w r v
  | memory m => rfl

/-- `mov`, whose flag write leaves the destination as the operand write made it (R130). -/
theorem moveBody_destinationValues (hw : di.width = some w) (hdst : di.dst = some dst) (hmn : di.mnemonic ≠ .cmp) :
    DestinationValues di s (moveBody w dst v cost p s).state (moveBody w dst v cost p s).old
      (moveBody w dst v cost p s).new := by
  refine destinationValues_of_destination hw hdst rfl ?_ (absurd · hmn)
  simp only [moveBody, ← readOperand_writeOperand]
  split <;> rfl

/-- `add` and `sub`, whose flag write leaves the destination as the operand write made it (R153). -/
theorem aluBody_destinationValues (hw : di.width = some w) (hdst : di.dst = some dst) (hmn : di.mnemonic ≠ .cmp) :
    DestinationValues di s (aluBody w dst v cost p s).state (aluBody w dst v cost p s).old
      (aluBody w dst v cost p s).new := by
  refine destinationValues_of_destination hw hdst rfl ?_ (absurd · hmn)
  simp only [aluBody, ← readOperand_writeOperand]
  rfl

/-- `cmp`, whose destination reads as before (R162). -/
theorem cmpBody_destinationValues (hw : di.width = some w) (hdst : di.dst = some dst) :
    DestinationValues di s (cmpBody w dst v cost p s).state (cmpBody w dst v cost p s).old
      (cmpBody w dst v cost p s).new :=
  destinationValues_of_destination hw hdst rfl rfl fun _ => rfl

end

/-- Every instruction halts, or completes with a body that gives the values of its destination (R246). -/
theorem exec_destinationValues (i : Instr) (s : State) :
    (∃ halt, exec i s = raise halt s) ∨
    ∃ body, exec i s = complete i body s ∧
      ∀ p, DestinationValues (decodedInstr s.ip i) s (body p s).state (body p s).old (body p s).new := by
  cases i with
  | movRmReg | movImmReg | movImmRm =>
    exact .inr ⟨_, rfl, fun p => moveBody_destinationValues rfl rfl nofun⟩
  | addRmReg | addImmRm | addImmAcc | subRmReg | subImmRm | subImmAcc =>
    exact .inr ⟨_, rfl, fun p => aluBody_destinationValues rfl rfl nofun⟩
  | cmpRmReg | cmpImmRm | cmpImmAcc =>
    exact .inr ⟨_, rfl, fun p => cmpBody_destinationValues rfl rfl⟩
  | jne rel8 =>
    rcases execJne_cases rel8 s with ⟨-, -, hexec⟩ | ⟨-, -, hexec⟩ | ⟨-, hexec⟩
    · exact .inl ⟨_, hexec⟩
    · exact .inr ⟨_, hexec, fun _ => ⟨rfl, rfl⟩⟩
    · exact .inr ⟨_, hexec, fun _ => ⟨rfl, rfl⟩⟩
  | je | jl | jle | jb | jbe | jp | jo | js | jnl | jg | jnb | ja | jnp | jno | jns | loop | loopz | loopnz | jcxz =>
    exact .inr ⟨_, rfl, fun _ => ⟨rfl, rfl⟩⟩

/-- Settles O53: a halt emits no record, and the record of a completed instruction holds the values its body gave. -/
theorem recordedValuesAreTheDestination : Obligations.RecordedValuesAreTheDestination := by
  intro i s t r hsim hexec htrace
  rcases exec_destinationValues i s with ⟨halt, hraise⟩ | ⟨body, hcomplete, hbody⟩
  · obtain rfl : { s with status := halt } = t := Host.Outcome.next.inj (hraise.symm.trans hexec)
    simp at htrace
  · rw [hcomplete, complete_sim hsim] at hexec
    obtain rfl := Host.Outcome.next.inj hexec
    obtain ⟨-, hr⟩ := List.append_inj' htrace rfl
    obtain rfl : simRecord i s (body (ipAfter s i.length) s) = r := by simpa using hr
    exact (hbody _).congr rfl rfl rfl

end Sys2Proof.Machine
end

section
/-! PROOFS. The start of a run: the values of a launch, the invariants it starts in, and the run of an empty stream
(R260-R267). -/

namespace Sys2Proof.Machine

/-! ## The reset values (R260, R261) -/

/-- The default of `RESET_REGS` is zero in every slot (R260; log entry 4). -/
theorem wordReg_reset : ∀ i : BitVec 3, wordReg State.reset i = 0 := by decide

/-- Settles O34: a launch holds its arguments and the spec's zeros, field by field. -/
theorem launchStateValues : Obligations.LaunchStateValues :=
  ⟨fun l => ⟨launch_regs l, launch_flags l, launch_ip l, launch_cyc l, launch_unrec l, launch_status l,
    launch_simulate l, launch_code l, launch_params l, launch_trace l⟩, wordReg_reset⟩

/-! ## The invariants at the start (R30, R34, R240) -/

/-- A launch lists no byte of memory and starts at position 0, so only the length of its stream is to be supposed. -/
theorem launch_inv {l : Launch} (hfit : l.code.length + 128 ≤ 2 ^ 32) : (State.launch l).Inv where
  memCanonical := rfl
  codeFits := hfit
  ipInReach := Nat.zero_le _

/-- The counters of a launch are the sums over its empty trace. -/
theorem launch_countersMatchTrace (l : Launch) : (State.launch l).CountersMatchTrace where
  cycles := rfl
  skipped := rfl

/-- Settles O30: `State.reset` is a launch too, of the empty stream, which fits `IP`. -/
theorem launchMeetsInvariants : Obligations.LaunchMeetsInvariants :=
  ⟨fun l hfit => ⟨launch_inv hfit, launch_countersMatchTrace l⟩,
    launch_inv (by simp [defaultLaunch]), launch_countersMatchTrace defaultLaunch⟩

/-! ## The empty program (R111, R267) -/

/-- The clean end reports in simulation mode only (R111). -/
theorem endRun_trace (s : State) :
    (endRun s).trace = s.trace ++ if s.simulate then [.finalReport s.regs s.ip s.flags.view] else [] := by
  unfold endRun
  cases hs : s.simulate with
  | true => rfl
  | false => simp

/-- The clean end writes `STATUS` and the trace alone. -/
theorem endRun_frame (s : State) : endRun s = { s with status := (endRun s).status, trace := (endRun s).trace } := by
  unfold endRun
  split <;> rfl

/-- Settles O35: `IP` starts at the end of an empty stream, and the clean end keeps the reset values. -/
theorem emptyProgramEndsAtOnce : Obligations.EmptyProgramEndsAtOnce := by
  intro l hempty
  have hend : (State.launch l).code.length ≤ (State.launch l).ip.toNat := by simp [hempty]
  have hmem (a : Word) : memRead (endRun (State.launch l)) a = 0 := by
    rw [memRead, endRun_mem]
    exact memoryIsZeroAtReset l a
  have hstep := step_of_streamEnd (launch_status l) hend
  exact ⟨endRun (State.launch l), hstep, endRun_status _, endRun_frame _, endRun_regs _, endRun_flags _, endRun_ip _,
    endRun_cyc _, endRun_unrec _, hmem, runInputsNeverChange _ _ hstep, endRun_trace _⟩

end Sys2Proof.Machine
end

section
/-! PROOFS. The known words of the test vectors, through the encoder and the three answers that are no instruction
(95_test_vectors.md). -/

namespace Sys2Proof.Machine

/-- The encoding of a well-formed instruction, with nothing after it, decodes to it. -/
theorem decode_of_encode_eq {i : Instr} {bytes : List Byte} (hwf : i.wf = true) (henc : encode i = bytes) :
    decode bytes = .instr i [] := by
  simpa [henc] using decodeInvertsEncode i [] hwf

/-- Settles O11: the eight words are the encodings of their instructions; `0F` is in no row, `83 C8` selects the
secondary opcode 001, and `B8 05` is the first of the eight without its last byte. -/
theorem knownWordsDecode : Obligations.KnownWordsDecode := by
  have hunrecognised : recognisedByte 0x0F = false := by decide
  have himmRm : dispatch 0x83 = some .immRm := by decide
  have hsub : subOp80 (regField 0xC8) = none := by decide
  have hcut : encode (.movImmReg .word 0 5) = [0xB8, 0x05] ++ [0x00] := by decide
  refine ⟨?_, ?_, ?_, ?_, ?_, ?_, ?_, ?_, decode_of_not_recognised [] hunrecognised,
    decode_immRm_unsupported [0x01] himmRm hsub, decode_of_cut_encoding rfl hcut nofun nofun⟩
  all_goals exact decode_of_encode_eq (by decide) (by decide)

end Sys2Proof.Machine
end
